-- ==== Sys2Proof/Word.lean ====
section
/-! DEFINITION. The words of the block: widths of spec/00_scope.md R6, R7, R8, R11 for `B = 15`. -/

namespace Sys2Proof

/-- `u8`: one register (R8, R21). -/
abbrev Byte := BitVec 8

/-- `u32`: an input value or a hash value (R6). -/
abbrev Word := BitVec 32

/-- `u15`: a bucket index, the address of a register (R7, R40). -/
abbrev Bucket := BitVec 15

/-- `u18`: the tail value, guard bit included (R7, R96). -/
abbrev Tail := BitVec 18

/-- A command word, `cmd[33:0]` (R61). -/
abbrev CmdWord := BitVec 34

/-- A response word, `rsp[64:0]` (R65). -/
abbrev RspWord := BitVec 65

/-- The bit pattern of an IEEE 754 binary64 number (R15): sign 63, exponent 62:52, fraction 51:0. -/
abbrev F64 := BitVec 64

/-- The contents of the register array: (index, value) pairs in rising order, registers at 0 left out (R20, R32). -/
abbrev Regs := List Host.Cell

end Sys2Proof
end

