-- ==== Sys2Proof/Syntax.lean ====
section
/-! DEFINITION. The commands of spec/opcode_table.json, one constructor a row, and the text syntax of a command stream
(spec/30_encoding.md R76 to R78). -/

namespace Sys2Proof

/-- A command (R62). `CLEAR`, `EST` and the reserved opcode ignore the 32 operand bits, any value of which decodes to the
same command (R63): they carry no operand. -/
inductive Instr where
  /-- `CLEAR`, op 00 (R70, R126). -/
  | clear
  /-- `ADD x`, op 01 (R71, R121). -/
  | add (x : Word)
  /-- `EST`, op 10 (R72, R141). -/
  | est
  /-- The reserved opcode 11, table mnemonic `RSVD` (R73, R180). -/
  | rsvd
deriving DecidableEq, Repr

/-- One line of a command stream in text (R76), and the pseudo-instructions (R78). -/
inductive AsmLine where
  | clear
  /-- `ADD <value>`, the value as the integer written. -/
  | add (v : Int)
  | est
  /-- `.word <34-bit hexadecimal>`. -/
  | word (w : Nat)
  /-- Pseudo: expands to `CLEAR`. -/
  | construct
  /-- Pseudo: expands to `EST`, after which the host applies `FINAL`. -/
  | estimate
deriving DecidableEq, Repr

/-- Why a line of text is no command: an assembly error (R77), never a command. -/
inductive AsmError where
  /-- The text is none of the forms of R76 and R78. Raised by the parser. -/
  | malformed
  /-- The `<value>` of `ADD` or the number of `.word` is outside its range (R76, R77). -/
  | outOfRange
deriving DecidableEq, Repr

/-- Why bytes are no command word or no response word (log entry 12). -/
inductive DecodeError where
  /-- Fewer bytes than the word takes. Raised by `decodeBytes` and `Response.ofBytes`; safe. -/
  | tooShort
  /-- A bit above the word's top bit (33 of a command, 64 of a response) is set: the bytes hold no such word. Raised by
  `decodeBytes` and `Response.ofBytes`; safe. -/
  | bitsAboveWord
deriving DecidableEq, Repr

end Sys2Proof
end

