-- ==== Sys2Proof/WellFormed.lean ====
section
/-! DEFINITION. Which terms of the syntax are commands: the ranges of spec/30_encoding.md R67, R76 and R77. -/

namespace Sys2Proof

/-- Every command is well formed: all `2^32` operand patterns of `ADD` are legal (R67) and the other commands have no
operand (R63). -/
def Instr.wf : Instr → Bool
  | .clear => true
  | .add _ => true
  | .est => true
  | .rsvd => true

/-- The lines that assemble: the value of `ADD` is in `-2147483648 .. 4294967295` (R77) and the number of `.word` has at
most 34 bits (R76). -/
def AsmLine.wf : AsmLine → Bool
  | .clear => true
  | .add v => decide (-2147483648 ≤ v) && decide (v ≤ 4294967295)
  | .est => true
  | .word w => decide (w < 2 ^ 34)
  | .construct => true
  | .estimate => true

end Sys2Proof
end

