-- ==== Sys2Proof/Decode.lean ====
section
/-! DEFINITION. The decoder and the encoder of command words (spec/30_encoding.md R61 to R75) and their form as five
bytes behind a serialising wrapper (spec/20_memory.md R44). -/

namespace Sys2Proof

/-- `cmd[33:32]` (R61). -/
def opField (w : CmdWord) : BitVec 2 := w.extractLsb' 32 2

/-- `cmd[31:0]` (R61). -/
def operandField (w : CmdWord) : Word := w.extractLsb' 0 32

/-- Decoding reads `cmd[33:32]` and needs no other bit to choose the command; it is total (R62, R69). -/
def decode (w : CmdWord) : Instr :=
  if opField w = 0b00#2 then .clear
  else if opField w = 0b01#2 then .add (operandField w)
  else if opField w = 0b10#2 then .est
  else .rsvd

/-- The `op` of each command (R62). -/
def Instr.op : Instr → BitVec 2
  | .clear => 0b00#2
  | .add _ => 0b01#2
  | .est => 0b10#2
  | .rsvd => 0b11#2

/-- The operand bits a host sends: the value of `ADD`; zero where the block ignores them (R63). -/
def Instr.operand : Instr → Word
  | .clear => 0
  | .add x => x
  | .est => 0
  | .rsvd => 0

/-- The command word a host sends for a command: `op` in bits 33:32, `operand` in bits 31:0 (R61, R62, R63). -/
def encode (i : Instr) : CmdWord := (i.op.setWidth 34 <<< 32) ||| i.operand.setWidth 34

/-- A command word as bytes: bits 7 to 0 first (R44); the six bits above bit 33 of the fifth byte are 0. -/
def wordBytes (w : CmdWord) : List Byte :=
  [w.extractLsb' 0 8, w.extractLsb' 8 8, w.extractLsb' 16 8, w.extractLsb' 24 8,
    (w.extractLsb' 32 2).setWidth 8]

/-- The bytes of a command. -/
def encodeBytes (i : Instr) : List Byte := wordBytes (encode i)

/-- The word of five bytes, the first holding bits 7 to 0 (R44). -/
def joinBytes (b0 b1 b2 b3 b4 : Byte) : CmdWord :=
  b0.setWidth 34 ||| (b1.setWidth 34 <<< 8) ||| (b2.setWidth 34 <<< 16) ||| (b3.setWidth 34 <<< 24)
    ||| (b4.setWidth 34 <<< 32)

/-- Reads one command from bytes, the first byte holding bits 7 to 0 (R44), and gives the rest of the bytes; total on any
bytes, rejecting by name. -/
def decodeBytes : List Byte → Except DecodeError (Instr × List Byte)
  | b0 :: b1 :: b2 :: b3 :: b4 :: rest =>
    if b4.extractLsb' 2 6 = 0#6 then .ok (decode (joinBytes b0 b1 b2 b3 b4), rest)
    else .error .bitsAboveWord
  | [] => .error .tooShort
  | [_] => .error .tooShort
  | [_, _] => .error .tooShort
  | [_, _, _] => .error .tooShort
  | [_, _, _, _] => .error .tooShort

/-- The bytes of a number, bits 7 to 0 first, `n` bytes. -/
def natBytes : Nat → Nat → List Byte
  | 0, _ => []
  | n + 1, w => BitVec.ofNat 8 w :: natBytes n (w / 256)

/-- The number bytes stand for, the first byte holding bits 7 to 0 (R44). -/
def natOfBytes : List Byte → Nat
  | [] => 0
  | b :: bs => b.toNat + 256 * natOfBytes bs

/-- The command the decoder reads from a word numbered as spec/opcode_table.json numbers it: the low `nbits` bits of `w`,
laid out as five bytes. -/
def decodeTableWord (nbits w : Nat) : Option Instr :=
  match decodeBytes (natBytes 5 (w % 2 ^ nbits)) with
  | .ok (i, _) => some i
  | .error _ => none

end Sys2Proof
end

