-- ==== Sys2Proof/Config.lean ====
section
/-! DEFINITION. What is fixed for one instance of the block (spec/00_scope.md R6 to R9, spec/10_state.md R26) and the
values the spec leaves open. An `opaque` constant has no body: nothing can be proved about its value. -/

namespace Sys2Proof

/-- `B = 15` (R6). -/
def Config.b : Nat := 15

/-- `M = 2^B = 32768`, the number of registers (R6). -/
def Config.m : Nat := 32768

/-- `HASH_W = 32` (R6). -/
def Config.hashW : Nat := 32

/-- `SENTINEL = HASH_W = 32`, what the scan returns when it finds no set bit (R7, R111). -/
def Config.sentinel : Nat := 32

/-- The five parameters of the mixing function (R9). A shift amount is in `1 .. 31`, kept as the amount less one. -/
structure MixParams where
  s1Less1 : Fin 31
  s2Less1 : Fin 31
  s3Less1 : Fin 31
  k1 : Word
  k2 : Word
deriving DecidableEq, Repr, Inhabited

/-- `MIX_S1` (R9). -/
def MixParams.s1 (p : MixParams) : Nat := p.s1Less1.val + 1

/-- `MIX_S2` (R9). -/
def MixParams.s2 (p : MixParams) : Nat := p.s2Less1.val + 1

/-- `MIX_S3` (R9). -/
def MixParams.s3 (p : MixParams) : Nat := p.s3Less1.val + 1

/-- The default the spec offers in R98, from general knowledge: PRESUMED, for tests against spec/95_test_vectors.md only.
No meaning uses it (log entry 5). -/
def MixParams.published : MixParams := ⟨15, 15, 15, 0x045D9F3B, 0x045D9F3B⟩

/-- The mix constants of this block: open (R98, decision D7; log entry 5). -/
opaque Config.mixParams : MixParams

/-- `LN`: open (R166, decision D15; log entry 7). Statements about the finalizer quantify over it. -/
opaque Config.ln : F64 → F64

/-- `ALPHA_NUM`, the binary64 nearest to 0.7213 (R167). -/
def Config.alphaNum : F64 := 0x3FE714E3BCD35A86

/-- `ALPHA_K`, the binary64 nearest to 1.079 (R167). -/
def Config.alphaK : F64 := 0x3FF14395810624DD

/-- FREE VALUE: the `Z_fx` of an `EST` in a state where some register is above 32, to which R145 gives no meaning
(log entry 8). -/
opaque Config.zAboveBound : Regs → BitVec 48

/-- The three binary64 operations of R15; used to keep their free values apart. -/
inductive F64Op where
  | add
  | mul
  | div
deriving DecidableEq, Repr

/-- FREE VALUE: sign and payload of the NaN an operation yields; IEEE 754 and the spec leave them open (log entry 9). -/
opaque Config.nanBits : F64Op → F64 → F64 → BitVec 52

/-- FREE VALUE: the 64-bit integer made of a binary64 value to which R15's `trunc` gives none that fits: NaN, infinity,
a truncated value below 0 or at or above `2^64` (log entry 10). -/
opaque Config.truncOpen : F64 → BitVec 64

end Sys2Proof
end

