-- ==== Sys2Proof/Machine/State.lean ====
section
/-! DEFINITION. The state of the block: the register array (spec/10_state.md R20 to R32) and what stands at its ports
(spec/30_encoding.md R60, R64). There is no other state (R27, R29, R30, R31). -/

namespace Sys2Proof.Machine

/-- A response record (R64). -/
structure Response where
  err : BitVec 1
  v : BitVec 16
  zfx : BitVec 48
deriving DecidableEq, Repr

/-- The state. `regs` is the architectural state of the spec; `cmds`, `rsps` and `rst` are what stands at the two ports
and at the reset input (R60, R213; log entries 1, 2, 3). -/
structure State where
  /-- The register array `reg`, in canonical form: `Regs.wf` (R20, R21). -/
  regs : Regs
  /-- The words the host offers on the command port and the block has not accepted, next first (R60, R61). -/
  cmds : List CmdWord
  /-- The responses the block has produced and the host has not taken, oldest first (R64, R66). -/
  rsps : List Response
  /-- The level of the reset input `rst` (R60, R200). -/
  rst : Bool
deriving DecidableEq, Repr

/-- The machine stops with a fault: nothing does. No command word is forbidden, every command finishes and answers, and
the one exception is a response with `err = 1`, after which the block goes on (R180, R182, R187, R211). -/
inductive Fault where
deriving DecidableEq, Repr

/-- The model gives no meaning. -/
inductive Refusal where
  /-- Raised by `exec` for an instruction without a meaning; safe. No arm raises it. -/
  | notModelled (mnemonic : String)
deriving DecidableEq, Repr

/-- Right after reset: every register 0 (R32, R200), no response (R200), no command accepted or offered, `rst` released
(log entries 1, 3). -/
def State.reset : State where
  regs := []
  cmds := []
  rsps := []
  rst := false

end Sys2Proof.Machine
end

