-- ==== Sys2Proof/Machine/Flags.lean ====
section
/-! DEFINITION. The block has no flags, condition codes or status bits (spec/10_state.md R30). The one bit that reports
anything is `err` of a response, the exception code of spec/60_exceptions.md R181; it is not stored. -/

namespace Sys2Proof.Machine

/-- Code 0: no exception (R181). -/
def errNone : BitVec 1 := 0

/-- Code 1: `IllegalCommand` (R181). -/
def errIllegalCommand : BitVec 1 := 1

end Sys2Proof.Machine
end

