-- ==== Sys2Proof/Machine/Ops.lean ====
section
/-! DEFINITION. The named operations over the register array, the response port and the reset input, and the raising of
the one exception. -/

namespace Sys2Proof

/-- What a register not listed holds: the reset value (R32). -/
def Regs.unlisted : Byte := 0#8

/-- The register at a number. The list is in rising order, so a larger key ends the search. -/
def Regs.getAt : Regs → Nat → Byte
  | [], _ => Regs.unlisted
  | c :: cs, a => if c.1 = a then c.2 else if a < c.1 then Regs.unlisted else Regs.getAt cs a

/-- The read primitive `reg[i]` (R41). Every index is in range (R45). -/
def Regs.read (r : Regs) (i : Bucket) : Byte := Regs.getAt r i.toNat

/-- The list with register `a` holding `v`, in its place; a register at the unlisted value is left out. -/
def Regs.put : Regs → Nat → Byte → Regs
  | [], a, v => if v = Regs.unlisted then [] else [(a, v)]
  | c :: cs, a, v =>
    if a < c.1 then (if v = Regs.unlisted then c :: cs else (a, v) :: c :: cs)
    else if a = c.1 then (if v = Regs.unlisted then cs else (a, v) :: cs)
    else c :: Regs.put cs a v

/-- The write primitive `reg[i] <- v` (R42). -/
def Regs.write (r : Regs) (i : Bucket) (v : Byte) : Regs := Regs.put r i.toNat v

/-- Every register 0 (R126, R200). -/
def Regs.cleared : Regs := []

/-- The canonical form from key `lo` on: keys rise, lie in `[lo, M)`, and no entry holds the unlisted value. -/
def Regs.wfFrom : Nat → Regs → Bool
  | _, [] => true
  | lo, c :: cs =>
    decide (lo ≤ c.1) && decide (c.1 < Config.m) && decide (c.2 ≠ Regs.unlisted) && Regs.wfFrom (c.1 + 1) cs

/-- The canonical form of the register array. -/
def Regs.wf (r : Regs) : Bool := Regs.wfFrom 0 r

/-- The exact sum of `f` over the registers `lo .. M-1` as `Regs.getAt` reads them. The order of the visit is not observable
(R142): a run of registers not listed, each at 0, is counted at once. -/
def Regs.sumFrom (f : Byte → Nat) : Nat → Regs → Nat
  | lo, [] => (Config.m - lo) * f Regs.unlisted
  | lo, c :: cs =>
    (min c.1 Config.m - lo) * f Regs.unlisted
      + (if lo ≤ c.1 ∧ c.1 < Config.m then f c.2 else 0)
      + Regs.sumFrom f (max lo (c.1 + 1)) cs

/-- The exact sum of `f` over all `M` registers: the register pass (R141). -/
def Regs.sumAll (f : Byte → Nat) (r : Regs) : Nat := Regs.sumFrom f 0 r

/-- 1 for a register above `n`. -/
def aboveTerm (n : Nat) (b : Byte) : Nat := if n < b.toNat then 1 else 0

/-- Every register holds at most `n`: none of the `M` registers is above it. -/
def Regs.allLe (n : Nat) (r : Regs) : Bool := decide (Regs.sumAll (aboveTerm n) r = 0)

/-- 1 for a register still at 0 (R141, step 1). -/
def zeroTerm (b : Byte) : Nat := if b = 0#8 then 1 else 0

/-- `2^(32 - r)` for a register `r` in `0 .. 32` (R141, step 2). -/
def harmonicTerm (b : Byte) : Nat := 2 ^ (32 - b.toNat)

/-- `V`, the count of zero registers (R141). -/
def Regs.zeroCount (r : Regs) : BitVec 16 := BitVec.ofNat 16 (Regs.sumAll zeroTerm r)

/-- `Z_fx`, the sum of `2^(32 - reg[i])` (R141); a free value where some register is above 32 (R145; log entry 8). -/
def Regs.harmonicSum (r : Regs) : BitVec 48 :=
  if Regs.allLe 32 r then BitVec.ofNat 48 (Regs.sumAll harmonicTerm r) else Config.zAboveBound r

end Sys2Proof

namespace Sys2Proof.Machine

/-- `respond(err, V, Z_fx)`: one response on the response port, after those already there (R14, R64, R66). -/
def State.respond (s : State) (rsp : Response) : State := { s with rsps := s.rsps ++ [rsp] }

/-- The response `(0, 0, 0)` of `ADD` and `CLEAR`, which only marks completion (R64). -/
def Response.done : Response := ⟨errNone, 0, 0⟩

/-- The response `(1, 0, 0)` of a reserved command (R64, R180). -/
def Response.illegal : Response := ⟨errIllegalCommand, 0, 0⟩

/-- `raise IllegalCommand`: no register is read or written, the response is `(1, 0, 0)`, nothing is latched or saved and
control goes nowhere (R14, R180, R187). There is no return from it and nothing to restore (R188). -/
def State.raiseIllegalCommand (s : State) : State := s.respond Response.illegal

/-- Replaces the register array; the ports stay. -/
def State.setRegs (s : State) (r : Regs) : State := { s with regs := r }

/-- What an asserted `rst` does: every register 0, and the responses that have not left are dropped; no response is
produced. The words the host offers stay its own (R200, R201). -/
def State.enterReset (s : State) : State := { s with regs := Regs.cleared, rsps := [] }

end Sys2Proof.Machine
end

