-- ==== Sys2Proof/Machine/Accept.lean ====
section
/-! DEFINITION. The command port from the block's side: a transfer takes the next offered word (spec/30_encoding.md R60). -/

namespace Sys2Proof.Machine

/-- The transfer on the command port: the next word and the state without it, or nothing where none is offered (R60). -/
def State.accept (s : State) : Option (CmdWord × State) :=
  match s.cmds with
  | [] => none
  | w :: ws => some (w, { s with cmds := ws })

/-- `w` offered ahead of every word that waits. -/
def State.offerFirst (s : State) (w : CmdWord) : State := { s with cmds := w :: s.cmds }

/-- The command word of a number: the bits above bit 33 do not fit the port (R61). -/
def wordOfNat (nbits w : Nat) : CmdWord := BitVec.ofNat 34 (w % 2 ^ nbits)

/-- The reset input driven to a level (R60). Asserting it puts the block in the reset state at once, whatever the block was
about to do, and drops the responses that have not left (R200, R201, R202); releasing it changes nothing else. An assertion
of any length resets: the spec gives no pin timing, and that none is too short is the model's choice (DESIGN CHOICE, log
entry 3). -/
def State.setRst (s : State) (level : Bool) : State :=
  if level then { s.enterReset with rst := true } else { s with rst := false }

end Sys2Proof.Machine
end

