-- ==== Sys2Proof/Machine/Exceptions.lean ====
section
/-! DEFINITION. The reserved opcode (spec/60_exceptions.md R180). -/

namespace Sys2Proof.Machine

/-- `RSVD`, `op = 0b11`: raises `IllegalCommand`, and the block then takes the next command (R74, R180). -/
def execRsvd (s : State) : Host.Outcome State Fault Refusal :=
  .next s.raiseIllegalCommand

end Sys2Proof.Machine
end

