-- ==== Sys2Proof/Machine/HarmonicMean.lean ====
section
/-! DEFINITION. The unit `harmonic_mean_accumulator`: the command `EST` (spec/43_harmonic_mean_accumulator.md). -/

namespace Sys2Proof.Machine

/-- `EST`: the pair `(V, Z_fx)` of one snapshot; the array is not written (R140, R141). -/
def execEst (s : State) : Host.Outcome State Fault Refusal :=
  .next (s.respond ⟨errNone, s.regs.zeroCount, s.regs.harmonicSum⟩)

end Sys2Proof.Machine
end

