-- ==== Sys2Proof/Machine/BitScan.lean ====
section
/-! DEFINITION. The unit `bit_scan_leading_zeros`: the pure function `RANK` (spec/41_bit_scan_leading_zeros.md). The scan
goes from bit 0 upward whatever the unit's name says (R110, 90_conflicts.md C1). -/

namespace Sys2Proof.Machine

/-- The scan from position `p` on over at most `fuel` positions: `position + 1` of the first set bit, else the sentinel
(R111). -/
def scanFrom (t : Word) : Nat → Nat → Nat
  | 0, _ => Config.sentinel
  | fuel + 1, p => if t.getLsbD p then p + 1 else scanFrom t fuel (p + 1)

/-- `RANK(t)`: positions 0 to 31 in this order (R111, R112). -/
def rank (t : Word) : Nat := scanFrom t 32 0

end Sys2Proof.Machine
end

