-- ==== Sys2Proof/Machine/HashMixer.lean ====
section
/-! DEFINITION. The unit `hash_mixer`: the pure functions `MIX`, `INDEX` and `TAIL` (spec/40_hash_mixer.md). -/

namespace Sys2Proof.Machine

/-- `v ^ (v >> s)`, the shift logical and to the right (R93). -/
def xorShift (v : Word) (s : Nat) : Word := v ^^^ (v >>> s)

/-- `MIX` with the five parameters given (R92). The product keeps its low 32 bits (R94). -/
def mixWith (p : MixParams) (x : Word) : Word :=
  let t1 := xorShift x p.s1
  let m1 := t1 * p.k1
  let t2 := xorShift m1 p.s2
  let m2 := t2 * p.k2
  xorShift m2 p.s3

/-- `MIX` of this block: its parameters are open (R92, R98). -/
def mix (x : Word) : Word := mixWith Config.mixParams x

/-- `INDEX(h) = h[14:0]` (R95). -/
def index (h : Word) : Bucket := h.extractLsb' 0 15

/-- `TAIL(h) = (h >> 15) | 0x20000`: the remaining 17 bits with the guard bit, bit 17, above them (R96). -/
def tail (h : Word) : Tail := (h >>> 15).setWidth 18 ||| 0x20000#18

end Sys2Proof.Machine
end

