-- ==== Sys2Proof/Machine/Operands.lean ====
section
/-! DEFINITION. The operand forms: the input value of `ADD` (spec/30_encoding.md R67), and the effective address and the
rank made from a hash (spec/20_memory.md R43). -/

namespace Sys2Proof.Machine

/-- The operand a host sends for an integer: its two's-complement pattern, `v mod 2^32` (R67). -/
def inputOfInt (v : Int) : Word := BitVec.ofInt 32 v

/-- The effective address of `ADD x`, `MIX(x)[14:0]` (R43). -/
def bucketOf (x : Word) : Bucket := index (mix x)

/-- The rank of a hash: `RANK(zext_32(TAIL(h)))` (R113). -/
def rankOfHash (h : Word) : Nat := rank ((tail h).setWidth 32)

/-- The rank `ADD x` uses, as the byte `zext_8(rank)` (R121). -/
def rankOf (x : Word) : Byte := BitVec.ofNat 8 (rankOfHash (mix x))

/-- `max` of two registers' contents, compared as unsigned integers (R12). -/
def maxByte (a b : Byte) : Byte := if a.toNat ≤ b.toNat then b else a

end Sys2Proof.Machine
end

