-- ==== Sys2Proof/Machine/RegisterUpdater.lean ====
section
/-! DEFINITION. The unit `register_updater`: the commands `ADD` and `CLEAR` (spec/42_register_updater.md). -/

namespace Sys2Proof.Machine

/-- The read-modify-write of one bucket: `reg[i] <- max(reg[i], rank)`, one indivisible action (R47, R54, R121). -/
def raiseRegister (r : Regs) (i : Bucket) (rk : Byte) : Regs := r.write i (maxByte (r.read i) rk)

/-- The update for an input whose hash is `h` (R121, R102). -/
def recordHash (r : Regs) (h : Word) : Regs := raiseRegister r (index h) (BitVec.ofNat 8 (rankOfHash h))

/-- `ADD x` (R121). -/
def execAdd (x : Word) (s : State) : Host.Outcome State Fault Refusal :=
  .next ((s.setRegs (recordHash s.regs (mix x))).respond Response.done)

/-- `CLEAR` (R126). -/
def execClear (s : State) : Host.Outcome State Fault Refusal :=
  .next ((s.setRegs Regs.cleared).respond Response.done)

end Sys2Proof.Machine
end

