-- ==== Sys2Proof/Machine/Dispatch.lean ====
section
/-! DEFINITION. One arm per command. -/

namespace Sys2Proof.Machine

def exec (i : Instr) (s : State) : Host.Outcome State Fault Refusal :=
  match i with
  | .clear => Sys2Proof.Machine.execClear s
  | .add x => Sys2Proof.Machine.execAdd x s
  | .est => Sys2Proof.Machine.execEst s
  | .rsvd => Sys2Proof.Machine.execRsvd s

end Sys2Proof.Machine
end

