-- ==== Sys2Proof/Machine/Step.lean ====
section
/-! DEFINITION. One step of the block: reset wins; else the next offered word is accepted and run; else the block waits. -/

namespace Sys2Proof.Machine

/-- One step. An asserted `rst` wins over a command: the block is held in the reset state and no command is accepted (R186,
R201). Else
the next word is accepted, decoded and run as one atomic action (R47, R50). With no word offered the block waits (R203;
log entry 15). -/
def step (s : State) : Host.Outcome State Fault Refusal :=
  if s.rst then .next s.enterReset
  else
    match s.accept with
    | some (w, s') => exec (decode w) s'
    | none => .next s

/-- `s` with the word `w` offered ahead of every other word and `rst` released, so that the next step runs it; nothing else
changes, and no reset is part of it
(log entry 1). -/
def State.withFetchWord (s : State) (nbits w : Nat) : State :=
  (s.offerFirst (wordOfNat nbits w)).setRst false

end Sys2Proof.Machine
end

