-- ==== Sys2Proof/Machine/Binary64.lean ====
section
/-! DEFINITION. IEEE 754 binary64 arithmetic, rounded to nearest, ties to even (spec/00_scope.md R15, spec/44_estimate_finalize.md
R165; log entry 18). A finite magnitude is a whole number of units, one unit being `2^(-1074)`, so every operation is an
exact quotient of two natural numbers that is rounded once. -/

namespace Sys2Proof.Machine.Binary64

/-- The sign bit. -/
def sign (d : F64) : Bool := d.msb

/-- The exponent field, bits 62:52. -/
def expField (d : F64) : Nat := d.toNat / 2 ^ 52 % 2 ^ 11

/-- The fraction field, bits 51:0. -/
def fraction (d : F64) : Nat := d.toNat % 2 ^ 52

/-- NaN: exponent all ones, fraction not 0. -/
def isNaN (d : F64) : Bool := decide (expField d = 2047) && decide (fraction d ≠ 0)

/-- An infinity: exponent all ones, fraction 0. -/
def isInf (d : F64) : Bool := decide (expField d = 2047) && decide (fraction d = 0)

/-- Neither NaN nor an infinity. -/
def isFinite (d : F64) : Bool := decide (expField d ≠ 2047)

/-- The magnitude of a finite value in units of `2^(-1074)`. -/
def units (d : F64) : Nat :=
  if expField d = 0 then fraction d else (2 ^ 52 + fraction d) * 2 ^ (expField d - 1)

/-- The units of the value 1. -/
def oneUnits : Nat := 2 ^ 1074

/-- Bits 62:0 of an infinity. -/
def infMagnitude : Nat := 2047 * 2 ^ 52

/-- `n / d` rounded to the nearest integer, ties to even. -/
def roundDiv (n d : Nat) : Nat :=
  if 2 * (n % d) < d then n / d
  else if d < 2 * (n % d) then n / d + 1
  else n / d + n / d % 2

/-- Bits 62:0 of the binary64 nearest to `num / den` units, ties to even. The last place weighs `2^k` units; a significand
rounded up to `2^53` carries into the exponent field, and a result past the largest finite one is an infinity. -/
def roundUnits (num den : Nat) : Nat :=
  let k := (num / den).log2 - 52
  min (k * 2 ^ 52 + roundDiv num (den * 2 ^ k)) infMagnitude

/-- A binary64 from its sign and its bits 62:0. -/
def pack (negative : Bool) (magnitude : Nat) : F64 :=
  BitVec.ofNat 64 ((if negative then 2 ^ 63 else 0) + magnitude)

/-- `+0.0`. -/
def zero : F64 := 0

/-- `1.0`. -/
def one : F64 := 0x3FF0000000000000

/-- The quiet NaN an operation yields: sign and payload are free values (log entry 9). -/
def nanOf (o : F64Op) (a b : F64) : F64 :=
  let bits := Config.nanBits o a b
  ((bits.extractLsb' 51 1).setWidth 64 <<< 63) ||| 0x7FF8000000000000#64 ||| (bits.extractLsb' 0 51).setWidth 64

/-- `f64(n)`: an integer as binary64, exact below `2^53` (R15). -/
def f64 (n : Nat) : F64 := pack false (roundUnits (n * oneUnits) 1)

/-- The value of a finite binary64 in units, with its sign. -/
def signedUnits (d : F64) : Int := if sign d then -(units d : Int) else (units d : Int)

/-- A signed number of units as binary64; an exact zero takes the sign given. -/
def ofSignedUnits (zeroNegative : Bool) (u : Int) : F64 :=
  pack (if u = 0 then zeroNegative else decide (u < 0)) (roundUnits u.natAbs 1)

/-- `fadd` (R15). -/
def fadd (a b : F64) : F64 :=
  if isNaN a || isNaN b then nanOf .add a b
  else if isInf a && isInf b then (if sign a = sign b then a else nanOf .add a b)
  else if isInf a then a
  else if isInf b then b
  else ofSignedUnits (sign a && sign b) (signedUnits a + signedUnits b)

/-- `fmul` (R15). -/
def fmul (a b : F64) : F64 :=
  let negative := sign a != sign b
  if isNaN a || isNaN b then nanOf .mul a b
  else if isInf a || isInf b then
    (if (isFinite a && decide (units a = 0)) || (isFinite b && decide (units b = 0)) then nanOf .mul a b
     else pack negative infMagnitude)
  else pack negative (roundUnits (units a * units b) oneUnits)

/-- `fdiv` (R15). -/
def fdiv (a b : F64) : F64 :=
  let negative := sign a != sign b
  if isNaN a || isNaN b then nanOf .div a b
  else if isInf a then (if isInf b then nanOf .div a b else pack negative infMagnitude)
  else if isInf b then pack negative 0
  else if units b = 0 then (if units a = 0 then nanOf .div a b else pack negative infMagnitude)
  else pack negative (roundUnits (units a * oneUnits) (units b))

/-- `trunc(d)` as the unsigned 64-bit result of R162: the fraction is discarded, rounding toward zero (R15, R164). Where
that is no integer of 64 bits the value is free (log entry 10). -/
def trunc (d : F64) : BitVec 64 :=
  let n := units d / oneUnits
  if isFinite d && decide (n < 2 ^ 64) && (!sign d || decide (n = 0)) then BitVec.ofNat 64 n
  else Config.truncOpen d

/-- The rational value of a finite binary64; for statements. -/
def toRat (d : F64) : ℚ := (signedUnits d : ℚ) / 2 ^ 1074

end Sys2Proof.Machine.Binary64
end

