-- ==== Sys2Proof/Machine/Finalize.lean ====
section
/-! DEFINITION. The finalizer `FINAL`, a pure function applied outside the block to the `V` and `Z_fx` of an `EST` response
(spec/44_estimate_finalize.md). The logarithm is an argument (R166): `final` takes the open `LN` of Config. -/

namespace Sys2Proof.Machine

/-- `f64(M)` = 32768.0 (R162). -/
def mF64 : F64 := Binary64.f64 Config.m

/-- `alpha = 0.7213 / (1 + 1.079 / M)` in the order of R162. -/
def alpha : F64 :=
  Binary64.fdiv Config.alphaNum (Binary64.fadd Binary64.one (Binary64.fdiv Config.alphaK mF64))

/-- `M * LN(M / V)`, the linear-counting value before truncation (R162, R163). -/
def linearCount (ln : F64 → F64) (v : BitVec 16) : F64 :=
  Binary64.fmul mF64 (ln (Binary64.fdiv mF64 (Binary64.f64 v.toNat)))

/-- `Z` as binary64: `f64(Z_fx) / 2^32`, exact (R68, R144). -/
def zValue (z : BitVec 48) : F64 := Binary64.fdiv (Binary64.f64 z.toNat) (Binary64.f64 (2 ^ 32))

/-- `E = (alpha * M^2) / Z`, the raw estimate before truncation (R162, R165). -/
def rawEstimate (z : BitVec 48) : F64 :=
  Binary64.fdiv (Binary64.fmul alpha (Binary64.fmul mF64 mF64)) (zValue z)

/-- `FINAL` with the logarithm given: two branches, chosen by `V > 0` alone, both truncated (R162, R163, R164, R169). -/
def finalWith (ln : F64 → F64) (v : BitVec 16) (z : BitVec 48) : BitVec 64 :=
  if v = 0 then Binary64.trunc (rawEstimate z) else Binary64.trunc (linearCount ln v)

/-- `FINAL` (R162). -/
def final (v : BitVec 16) (z : BitVec 48) : BitVec 64 := finalWith Config.ln v z

/-- The document's `estimate()` of a register array: `FINAL` after `EST` (R161), the logarithm given. -/
def estimateWith (ln : F64 → F64) (r : Regs) : BitVec 64 := finalWith ln r.zeroCount r.harmonicSum

/-- The document's `estimate()` in a state (R161). -/
def State.estimate (s : State) : BitVec 64 := estimateWith Config.ln s.regs

end Sys2Proof.Machine
end

