-- ==== Sys2Proof/Machine/Assembler.lean ====
section
/-! DEFINITION. The text syntax of command streams (spec/30_encoding.md R76 to R78; log entry 16). -/

namespace Sys2Proof.Machine

/-- What a line assembles to: a word for the command port, and whether the host applies `FINAL` to its response (R78). -/
structure AsmItem where
  word : CmdWord
  finalize : Bool
deriving DecidableEq, Repr

/-- The word of a line. A value outside its range is an assembly error, not a command (R77). -/
def assemble (l : AsmLine) : Except AsmError AsmItem :=
  if l.wf then
    match l with
    | .clear => .ok ⟨encode .clear, false⟩
    | .add v => .ok ⟨encode (.add (inputOfInt v)), false⟩
    | .est => .ok ⟨encode .est, false⟩
    | .word w => .ok ⟨BitVec.ofNat 34 w, false⟩
    | .construct => .ok ⟨encode .clear, false⟩
    | .estimate => .ok ⟨encode .est, true⟩
  else .error .outOfRange

/-- The value of a decimal digit. -/
def decDigit (c : Char) : Option Nat :=
  if 48 ≤ c.toNat ∧ c.toNat ≤ 57 then some (c.toNat - 48) else none

/-- The value of a hexadecimal digit, in either case. -/
def hexDigit (c : Char) : Option Nat :=
  if 48 ≤ c.toNat ∧ c.toNat ≤ 57 then some (c.toNat - 48)
  else if 65 ≤ c.toNat ∧ c.toNat ≤ 70 then some (c.toNat - 55)
  else if 97 ≤ c.toNat ∧ c.toNat ≤ 102 then some (c.toNat - 87)
  else none

/-- The number written by digits of a base, most significant first, after the number read so far. -/
def numberFrom (base : Nat) (digit : Char → Option Nat) : Nat → List Char → Option Nat
  | acc, [] => some acc
  | acc, c :: cs => match digit c with
    | some d => numberFrom base digit (acc * base + d) cs
    | none => none

/-- A numeral: at least one digit, and any number of them, leading zeros too: R76 and R77 bound the value and name no number
of digits (DESIGN CHOICE, log entry 16). -/
def numeral (base : Nat) (digit : Char → Option Nat) : List Char → Option Nat
  | [] => none
  | c :: cs => numberFrom base digit 0 (c :: cs)

/-- A hexadecimal numeral, `0x` and its digits. -/
def hexNumeral : List Char → Option Nat
  | '0' :: 'x' :: cs => numeral 16 hexDigit cs
  | _ => none

/-- `<value>`: a decimal integer or a hexadecimal numeral (R77). -/
def valueOf (cs : List Char) : Option Int :=
  match hexNumeral cs with
  | some n => some (n : Int)
  | none => match cs with
    | '-' :: ds => (numeral 10 decDigit ds).map fun n => -(n : Int)
    | ds => (numeral 10 decDigit ds).map fun n => (n : Int)

/-- A line without its comment: `#` starts a comment to the end of the line (R76). -/
def withoutComment : List Char → List Char
  | [] => []
  | c :: cs => if c = '#' then [] else c :: withoutComment cs

/-- The words of a line, parted by spaces; `cur` holds the letters of the word being read, last first. -/
def fieldsFrom : List Char → List Char → List (List Char)
  | cur, [] => if cur = [] then [] else [cur.reverse]
  | cur, c :: cs =>
    if c = ' ' then (if cur = [] then fieldsFrom [] cs else cur.reverse :: fieldsFrom [] cs)
    else fieldsFrom (c :: cur) cs

/-- One line of text: a line of the stream, or nothing where it holds only a comment (R76, R78). -/
def parseLine (cs : List Char) : Except AsmError (Option AsmLine) :=
  match fieldsFrom [] (withoutComment cs) with
  | [] => .ok none
  | [m] =>
    if m = ['C', 'L', 'E', 'A', 'R'] then .ok (some .clear)
    else if m = ['E', 'S', 'T'] then .ok (some .est)
    else if m = ['C', 'O', 'N', 'S', 'T', 'R', 'U', 'C', 'T'] then .ok (some .construct)
    else if m = ['E', 'S', 'T', 'I', 'M', 'A', 'T', 'E'] then .ok (some .estimate)
    else .error .malformed
  | [m, v] =>
    if m = ['A', 'D', 'D'] then
      (match valueOf v with
       | some n => .ok (some (.add n))
       | none => .error .malformed)
    else if m = ['.', 'w', 'o', 'r', 'd'] then
      (match hexNumeral v with
       | some n => .ok (some (.word n))
       | none => .error .malformed)
    else .error .malformed
  | _ => .error .malformed

/-- The lines of a text. The character LF alone ends a line: R76 names none (DESIGN CHOICE, log entry 16), so a CR before it
is a character of the line. `cur` holds the letters of the line being read, last first. -/
def linesFrom : List Char → List Char → List (List Char)
  | cur, [] => [cur.reverse]
  | cur, c :: cs => if c = '\n' then cur.reverse :: linesFrom [] cs else linesFrom (c :: cur) cs

/-- The items of lines in order; the first error stops the assembly. -/
def assembleLines : List (List Char) → Except AsmError (List AsmItem)
  | [] => .ok []
  | cs :: rest => match parseLine cs with
    | .error e => .error e
    | .ok none => assembleLines rest
    | .ok (some l) => match assemble l with
      | .error e => .error e
      | .ok item => match assembleLines rest with
        | .error e => .error e
        | .ok items => .ok (item :: items)

/-- A command stream in text, one command per line (R76). -/
def assembleText (cs : List Char) : Except AsmError (List AsmItem) := assembleLines (linesFrom [] cs)

/-- What the host makes of the responses to a stream, one for each item in order: `FINAL` of each that `ESTIMATE` asked for
(R78, R213). -/
def estimates : List AsmItem → List Response → List (BitVec 64)
  | [], _ => []
  | _ :: _, [] => []
  | item :: items, r :: rs => if item.finalize then final r.v r.zfx :: estimates items rs else estimates items rs

end Sys2Proof.Machine
end

