-- ==== Sys2Proof/Machine/Ports.lean ====
section
/-! DEFINITION. What stands outside the block: the response word and its bytes (spec/30_encoding.md R65, spec/20_memory.md R44), and everything the host can do
(spec/70_reset_and_hazards.md R213). -/

namespace Sys2Proof.Machine

/-- The response word: `err` in bit 64, `V` in 63:48, `Z_fx` in 47:0 (R65). -/
def Response.word (r : Response) : RspWord :=
  (r.err.setWidth 65 <<< 64) ||| (r.v.setWidth 65 <<< 48) ||| r.zfx.setWidth 65

/-- The record a response word stands for (R65). -/
def Response.ofWord (w : RspWord) : Response := ⟨w.extractLsb' 64 1, w.extractLsb' 48 16, w.extractLsb' 0 48⟩

/-- A response as nine bytes behind a serialising wrapper: bits 7 to 0 first (R44); the seven bits above bit 64 of the ninth
byte are 0 (DESIGN CHOICE, log entry 12). -/
def Response.bytes (r : Response) : List Byte := natBytes 9 r.word.toNat

/-- Reads one response from bytes, the first byte holding bits 7 to 0 (R44), and gives the rest of the bytes; total on any
bytes, rejecting by name (log entry 12). -/
def Response.ofBytes (bs : List Byte) : Except DecodeError (Response × List Byte) :=
  if bs.length < 9 then .error .tooShort
  else if natOfBytes (bs.take 9) < 2 ^ 65 then
    .ok (Response.ofWord (BitVec.ofNat 65 (natOfBytes (bs.take 9))), bs.drop 9)
  else .error .bitsAboveWord

/-- The host offers a word on the command port, after those it offers already (R60, R213). -/
def State.offer (s : State) (w : CmdWord) : State := { s with cmds := s.cmds ++ [w] }

/-- The host takes the oldest response, where one waits (R60, R66, R213). -/
def State.take (s : State) : Option (Response × State) :=
  match s.rsps with
  | [] => none
  | r :: rs => some (r, { s with rsps := rs })

/-- What can happen next at the block: the host drives `rst`, offers a word or takes a response, at any time and in any
order (R213); or the block makes a step. -/
inductive HostAction where
  | setRst (level : Bool)
  | offer (w : CmdWord)
  | take
  | blockStep
deriving DecidableEq, Repr

/-- One action (asserting `rst` resets at once, `State.setRst`): the state after it and the response taken, if one was. A step that answered no state would change nothing;
every step answers one. -/
def act (s : State) : HostAction → State × Option Response
  | .setRst level => (s.setRst level, none)
  | .offer w => (s.offer w, none)
  | .take => match s.take with
    | some (r, s') => (s', some r)
    | none => (s, none)
  | .blockStep => match step s with
    | .next s' => (s', none)
    | .fault _ => (s, none)
    | .refused _ => (s, none)

/-- A session: the actions in order; the state at the end and the responses taken, in order. -/
def session : List HostAction → State → State × List Response
  | [], s => (s, [])
  | a :: as, s =>
    let (s', taken) := act s a
    let (t, rs) := session as s'
    (t, taken.toList ++ rs)

/-- `n` steps of the block, stopping at the first that answers no state (R212). -/
def runSteps : Nat → State → Host.Outcome State Fault Refusal
  | 0, s => .next s
  | n + 1, s => match step s with
    | .next s' => runSteps n s'
    | .fault f => .fault f
    | .refused r => .refused r

end Sys2Proof.Machine
end

