-- ==== Sys2Proof/Safety.lean ====
section
/-! DEFINITION. What claims are stated in: the invariant of every reachable state (spec/10_state.md R23, R24), the spec's
own fold over commands (spec/00_scope.md R16, spec/70_reset_and_hazards.md R212), the interleavings of several hosts
(spec/20_memory.md R56) and the named properties of the logarithm (spec/44_estimate_finalize.md R166). -/

namespace Sys2Proof.Machine

/-- The array is in canonical form and every register holds one of 0 .. 18 (R24). -/
def State.Inv (s : State) : Prop := s.regs.wf = true ∧ ∀ i : Bucket, (s.regs.read i).toNat ≤ 18

/-- The register array as the spec speaks of it: a value for each bucket (R20, R41). -/
abbrev RegArray := Bucket → Byte

/-- Every register 0 (R32). -/
def RegArray.zeros : RegArray := fun _ => 0#8

/-- The array with register `i` holding `v` and no other changed (R42). -/
def RegArray.set (a : RegArray) (i : Bucket) (v : Byte) : RegArray := fun j => if j = i then v else a j

/-- The number of zero registers (R141, step 1). -/
def RegArray.v (a : RegArray) : Nat := ((Finset.range 32768).filter fun k => a (BitVec.ofNat 15 k) = 0#8).card

/-- The sum of `2^(32 - reg[i])` over all registers (R141, step 2). -/
def RegArray.z (a : RegArray) : Nat := ∑ k ∈ Finset.range 32768, 2 ^ (32 - (a (BitVec.ofNat 15 k)).toNat)

/-- The spec's `step : State × Command → State × Response`, written over the array as the command rules write it
(R16, R121, R126, R141, R180). -/
def RegArray.command (a : RegArray) : Instr → RegArray × Response
  | .clear => (RegArray.zeros, ⟨0, 0, 0⟩)
  | .add x =>
    (a.set (bucketOf x) (BitVec.ofNat 8 (max (a (bucketOf x)).toNat (rankOfHash (mix x)))), ⟨0, 0, 0⟩)
  | .est => (a, ⟨0, BitVec.ofNat 16 a.v, BitVec.ofNat 48 a.z⟩)
  | .rsvd => (a, ⟨1, 0, 0⟩)

/-- The left fold of `command` over the accepted commands: the final array and the responses in order (R16, R212). -/
def foldCommands : List CmdWord → RegArray → RegArray × List Response
  | [], a => (a, [])
  | w :: ws, a =>
    let (b, r) := a.command (decode w)
    let (c, rs) := foldCommands ws b
    (c, r :: rs)

/-- `seq` is an interleaving of the hosts' command lists that keeps each host's own order: an arbiter's choice (R56). -/
inductive Interleaves : List (List CmdWord) → List CmdWord → Prop where
  | done (hosts : List (List CmdWord)) (h : ∀ l ∈ hosts, l = []) : Interleaves hosts []
  | pick (before after : List (List CmdWord)) (w : CmdWord) (ws seq : List CmdWord)
      (h : Interleaves (before ++ ws :: after) seq) : Interleaves (before ++ (w :: ws) :: after) (w :: seq)

/-- The words the host offers in a session, in order (R213). -/
def offeredWords : List HostAction → List CmdWord
  | [] => []
  | .offer w :: as => w :: offeredWords as
  | .setRst _ :: as => offeredWords as
  | .take :: as => offeredWords as
  | .blockStep :: as => offeredWords as

/-- (P1) `LN(1.0) = +0.0` (R166). -/
def LnP1 (ln : F64 → F64) : Prop := ln Binary64.one = Binary64.zero

/-- (P2) For every finite `q >= 1.0`, `LN(q)` is finite, not NaN, and `>= +0.0` (R166). The comparison is read as that of the
values, which an answer of -0.0 meets (DESIGN CHOICE, log entry 20). -/
def LnP2 (ln : F64 → F64) : Prop :=
  ∀ q, Binary64.isFinite q = true → 1 ≤ Binary64.toRat q →
    Binary64.isFinite (ln q) = true ∧ 0 ≤ Binary64.toRat (ln q)

/-- (P3) `LN` is non-decreasing on `[1.0, 32768.0]` (R166). It compares the answers that are finite; an answer that is NaN or
infinite is not compared, which R166 leaves open (DESIGN CHOICE, log entry 21). -/
def LnP3 (ln : F64 → F64) : Prop :=
  ∀ q q', Binary64.isFinite q = true → Binary64.isFinite q' = true → 1 ≤ Binary64.toRat q →
    Binary64.toRat q ≤ Binary64.toRat q' → Binary64.toRat q' ≤ 32768 →
    Binary64.isFinite (ln q) = true → Binary64.isFinite (ln q') = true →
    Binary64.toRat (ln q) ≤ Binary64.toRat (ln q')

/-- (P4) On `[1.0, 32768.0]` the error of `LN` relative to the natural logarithm is at most `lnErr` (R166). An answer that is
NaN or infinite has no such error and does not meet it, which R166 leaves open (DESIGN CHOICE, log entry 21). -/
def LnP4 (ln : F64 → F64) (lnErr : ℝ) : Prop :=
  ∀ q, Binary64.isFinite q = true → 1 ≤ Binary64.toRat q → Binary64.toRat q ≤ 32768 →
    Binary64.isFinite (ln q) = true ∧
    |(Binary64.toRat (ln q) : ℝ) - Real.log (Binary64.toRat q : ℝ)| ≤ lnErr * Real.log (Binary64.toRat q : ℝ)

end Sys2Proof.Machine
end

