-- ==== Sys2Proof/Certificates/Slice0/Obligations.lean ====
section
/-! DEFINITION. The statements about the block, made from the numbered rules of spec/. -/

open Sys2Proof Sys2Proof.Machine

/-! ### Reset -/

/-- R32: after reset every register is 0, and `CLEAR` has the same effect on the array. -/
def Obligations.ResetLeavesEveryRegisterZero : Prop :=
  (∀ i : Bucket, State.reset.regs.read i = 0#8) ∧
    ∀ s : State, ∃ t, exec .clear s = .next t ∧ t.regs = State.reset.regs

/-- R200: asserting `rst` puts the block in the reset state, whatever it held and whatever is offered, and produces no
response. -/
def Obligations.AssertedResetClearsTheBlock : Prop :=
  ∀ s : State, s.rst = true → ∃ t, step s = .next t ∧ (∀ i : Bucket, t.regs.read i = 0#8) ∧ t.rsps = []

/-- R201: no word is accepted while `rst` is asserted. That the offered words stay offered and that `rst` stays a level is
the model's choice (log entry 3). -/
def Obligations.AssertedResetAcceptsNoCommand : Prop :=
  ∀ s : State, s.rst = true → ∃ t, step s = .next t ∧ t.cmds = s.cmds ∧ t.rst = true

/-- The invariant of R24 and of the canonical form holds right after reset. -/
def Obligations.ResetMeetsReachableInvariant : Prop := State.Inv State.reset

/-! ### Invariants -/

/-- R24: from every state whose array is in canonical form with registers in 0 .. 18, every step gives such a state. -/
def Obligations.StepKeepsReachableInvariant : Prop :=
  ∀ s t : State, s.Inv → step s = .next t → t.Inv

/-- R24, R213: whatever the host does at the ports and at `rst`, in any order, the invariant stays. -/
def Obligations.SessionsKeepReachableInvariant : Prop :=
  ∀ (actions : List HostAction) (s : State), s.Inv → (session actions s).1.Inv

/-- R23: registers start at 0; over any run without `CLEAR` and reset every register is non-decreasing; and a step that
lowers a register is a reset or a `CLEAR`. -/
def Obligations.OnlyClearAndResetLowerRegisters : Prop :=
  (∀ i : Bucket, State.reset.regs.read i = 0#8) ∧
  (∀ (n : Nat) (s : State), s.rst = false → (∀ w ∈ s.cmds, opField w ≠ 0b00#2) →
    ∃ t, runSteps n s = .next t ∧ ∀ i : Bucket, (s.regs.read i).toNat ≤ (t.regs.read i).toNat) ∧
  (∀ (s t : State) (i : Bucket), step s = .next t → (t.regs.read i).toNat < (s.regs.read i).toNat →
    s.rst = true ∨ ∃ w ws, s.cmds = w :: ws ∧ opField w = 0b00#2)

/-! ### The commands: result, completion and frame -/

/-- R126: `CLEAR` writes 0 to every register and answers (0, 0, 0); it reads nothing, so `CLEAR` twice is `CLEAR` once and
in the reset state it changes nothing; no other command lowers a register. Frame: the command port and `rst`. -/
def Obligations.ClearZeroesEveryRegister : Prop :=
  (∀ s : State, ∃ t, exec .clear s = .next t ∧ (∀ i : Bucket, t.regs.read i = 0#8) ∧ t.regs = State.reset.regs ∧
    t.rsps = s.rsps ++ [⟨0, 0, 0⟩] ∧ t.cmds = s.cmds ∧ t.rst = s.rst) ∧
  (∀ (j : Instr) (s t : State), j ≠ .clear → exec j s = .next t →
    ∀ i : Bucket, (s.regs.read i).toNat ≤ (t.regs.read i).toNat)

/-- R121: `ADD x` raises the register of the bucket `MIX(x)[14:0]` to the maximum of what it held and the rank of the
tail, as unsigned integers, and answers (0, 0, 0). Frame: every other register, the command port, `rst`. -/
def Obligations.AddRaisesOneRegister : Prop :=
  ∀ (x : Word) (s : State), ∃ t, exec (.add x) s = .next t ∧
    (t.regs.read (index (mix x))).toNat =
      max (s.regs.read (index (mix x))).toNat (rank ((tail (mix x)).setWidth 32)) ∧
    (∀ j : Bucket, j ≠ index (mix x) → t.regs.read j = s.regs.read j) ∧
    t.rsps = s.rsps ++ [⟨0, 0, 0⟩] ∧ t.cmds = s.cmds ∧ t.rst = s.rst

/-- R124: in a state with registers in 0 .. 18, the rank of an added value is in 1 .. 18, and the register written ends in
1 .. 18 and not below what it held. -/
def Obligations.AddKeepsRegisterRanges : Prop :=
  ∀ (x : Word) (s : State), s.Inv → ∃ t, exec (.add x) s = .next t ∧
    1 ≤ rankOfHash (mix x) ∧ rankOfHash (mix x) ≤ 18 ∧ (s.regs.read (bucketOf x)).toNat ≤ 18 ∧
    1 ≤ (t.regs.read (bucketOf x)).toNat ∧ (t.regs.read (bucketOf x)).toNat ≤ 18 ∧
    (s.regs.read (bucketOf x)).toNat ≤ (t.regs.read (bucketOf x)).toNat

/-- R141: `EST` answers the number of zero registers and, where no register is above 32, the exact sum of
`2^(32 - reg[i])`; it changes nothing else. Above 32 the sum is a free value (R145, log entry 8). -/
def Obligations.EstAnswersCountAndSum : Prop :=
  ∀ s : State, ∃ (v : BitVec 16) (z : BitVec 48), exec .est s = .next { s with rsps := s.rsps ++ [⟨0, v, z⟩] } ∧
    v.toNat = ((Finset.range 32768).filter fun k => s.regs.read (BitVec.ofNat 15 k) = 0#8).card ∧
    ((∀ i : Bucket, (s.regs.read i).toNat ≤ 32) →
      z.toNat = ∑ k ∈ Finset.range 32768, 2 ^ (32 - (s.regs.read (BitVec.ofNat 15 k)).toNat))

/-- R180: the reserved opcode changes no state and answers (1, 0, 0); and `err` is 1 for that opcode and for nothing else. -/
def Obligations.ReservedOpcodeAnswersIllegalCommand : Prop :=
  (∀ s : State, exec .rsvd s = .next { s with rsps := s.rsps ++ [⟨1, 0, 0⟩] }) ∧
  (∀ (w : CmdWord) (s : State), ∃ t r, exec (decode w) s = .next t ∧ t.rsps = s.rsps ++ [r] ∧
    (r.err = 1 ↔ w.extractLsb' 32 2 = 0b11#2))

/-- R66, frame of all four commands: each answers exactly one response, after those that wait, and touches neither the
command port nor `rst`; `EST` and the reserved opcode write no register. -/
def Obligations.EveryCommandAnswersOnce : Prop :=
  ∀ (i : Instr) (s : State), ∃ t r, exec i s = .next t ∧ t.rsps = s.rsps ++ [r] ∧ t.cmds = s.cmds ∧ t.rst = s.rst ∧
    ((i = .est ∨ i = .rsvd) → t.regs = s.regs)

/-! ### The step -/

/-- With `rst` released and a word offered, a step accepts the word and is the run of the command it decodes to. -/
def Obligations.StepRunsTheOfferedCommand : Prop :=
  ∀ (s : State) (w : CmdWord) (ws : List CmdWord), s.rst = false → s.cmds = w :: ws →
    step s = exec (decode w) { s with cmds := ws }

/-- R203: with `rst` released and no word offered, the block waits as it is (log entry 15). -/
def Obligations.StepWaitsForACommand : Prop :=
  ∀ s : State, s.rst = false → s.cmds = [] → step s = .next s

/-- R182, R211: every step answers a next state: no command word, operand or array contents stops the block. -/
def Obligations.EveryStepGoesOn : Prop :=
  ∀ s : State, ∃ t, step s = .next t

/-- R22, R52, R200: of what the host can do, asserting `rst` puts the array in the reset state, and offering a word, taking
a response and releasing `rst` leave it. -/
def Obligations.OnlyAssertingResetLetsTheHostChangeTheArray : Prop :=
  ∀ (s : State) (a : HostAction), a ≠ .blockStep →
    (act s a).1.regs = if a = .setRst true then State.reset.regs else s.regs

/-! ### Encoding -/

/-- R62: the two bits `op` select the command. -/
def Obligations.OpcodeSelectsTheCommand : Prop :=
  ∀ w : CmdWord,
    (w.extractLsb' 32 2 = 0b00#2 → decode w = .clear) ∧
    (w.extractLsb' 32 2 = 0b01#2 → decode w = .add (w.extractLsb' 0 32)) ∧
    (w.extractLsb' 32 2 = 0b10#2 → decode w = .est) ∧
    (w.extractLsb' 32 2 = 0b11#2 → decode w = .rsvd)

/-- R70 to R73 and the programs of spec/95_test_vectors.md: some words, written out. -/
def Obligations.SampleWordsDecode : Prop :=
  decode 0x000000000#34 = .clear ∧ decode 0x100000001#34 = .add 1#32 ∧ decode 0x1FFFFFFFF#34 = .add 0xFFFFFFFF#32 ∧
    decode 0x10000AC05#34 = .add 44037#32 ∧ decode 0x200000000#34 = .est ∧ decode 0x2FFFFFFFF#34 = .est ∧
    decode 0x3DEADBEEF#34 = .rsvd

/-- R61 to R63, R69: decoding an encoded command gives it back, from the word and from its five bytes with any bytes after
them; and encoding a decoded word keeps its opcode, keeps the operand of `ADD`, and writes 0 to the ignored bits. The five
bytes are the form of log entry 12. -/
def Obligations.DecodeAndEncodeAgree : Prop :=
  (∀ i : Instr, decode (encode i) = i) ∧
  (∀ (i : Instr) (rest : List Byte), decodeBytes (encodeBytes i ++ rest) = .ok (i, rest)) ∧
  (∀ (w : CmdWord) (rest : List Byte), decodeBytes (wordBytes w ++ rest) = .ok (decode w, rest)) ∧
  (∀ w : CmdWord, encode (decode w) = if opField w = 0b01#2 then w else w &&& 0x300000000#34)

/-- R63: two words with the same opcode, not that of `ADD`, are the same command, whatever their operand bits, and a step
does the same with either. -/
def Obligations.OperandBitsAreIgnored : Prop :=
  ∀ (w w' : CmdWord) (ws : List CmdWord) (s : State), opField w = opField w' → opField w ≠ 0b01#2 →
    decode w = decode w' ∧
      (s.rst = false → step { s with cmds := w :: ws } = step { s with cmds := w' :: ws })

/-- R65: the fields of the response word, and that the word and the record determine each other. -/
def Obligations.ResponseWordHoldsTheRecord : Prop :=
  (∀ r : Response, r.word.extractLsb' 64 1 = r.err ∧ r.word.extractLsb' 48 16 = r.v ∧ r.word.extractLsb' 0 48 = r.zfx ∧
    Response.ofWord r.word = r) ∧
  (∀ w : RspWord, (Response.ofWord w).word = w)

/-- R67, R77: a value in range assembles to the `ADD` of its two's-complement pattern; any other value is an assembly
error. -/
def Obligations.AddOperandIsTwosComplement : Prop :=
  ∀ v : Int,
    (-2147483648 ≤ v ∧ v ≤ 4294967295 → ∃ x : Word, assemble (.add v) = .ok ⟨encode (.add x), false⟩ ∧
      (x.toNat : Int) = if v < 0 then v + 4294967296 else v) ∧
    (v < -2147483648 ∨ 4294967295 < v → assemble (.add v) = .error .outOfRange)

/-- R78: `CONSTRUCT` expands to `CLEAR`; `ESTIMATE` expands to `EST` and has `FINAL` applied to its response. -/
def Obligations.PseudoInstructionsExpand : Prop :=
  assemble .construct = .ok ⟨encode .clear, false⟩ ∧ assemble .estimate = .ok ⟨encode .est, true⟩ ∧
    assemble .est = .ok ⟨encode .est, false⟩

/-! ### Mixing function, split, rank -/

/-- R92, R94: the mixing function as arithmetic on numbers below 2^32, the products modulo 2^32. -/
def Obligations.MixIsTwoRoundsModulo32Bits : Prop :=
  ∀ (p : MixParams) (x : Word),
    let t1 := x.toNat ^^^ (x.toNat / 2 ^ p.s1)
    let m1 := t1 * p.k1.toNat % 2 ^ 32
    let t2 := m1 ^^^ (m1 / 2 ^ p.s2)
    let m2 := t2 * p.k2.toNat % 2 ^ 32
    (mixWith p x).toNat = m2 ^^^ (m2 / 2 ^ p.s3)

/-- R100: for every value of the five parameters `MIX(0) = 0`; so `ADD 0` selects bucket 0 with rank 18. -/
def Obligations.MixOfZeroIsZero : Prop :=
  (∀ p : MixParams, mixWith p 0#32 = 0#32 ∧ index (mixWith p 0#32) = 0#15 ∧ tail (mixWith p 0#32) = 0x20000#18) ∧
  (∀ s : State, ∃ t, exec (.add 0#32) s = .next t ∧ (t.regs.read 0#15).toNat = max (s.regs.read 0#15).toNat 18 ∧
    ∀ j : Bucket, j ≠ 0#15 → t.regs.read j = s.regs.read j)

/-- R101: the mixing function is a bijection exactly when both multipliers are odd; the default's is one. -/
def Obligations.MixIsBijectiveExactlyForOddMultipliers : Prop :=
  (∀ p : MixParams, Function.Bijective (mixWith p) ↔ (p.k1.toNat % 2 = 1 ∧ p.k2.toNat % 2 = 1)) ∧
  Function.Bijective (mixWith MixParams.published)

/-- R95, R96, R97: the index is the hash modulo 32768; the tail value is the rest with the guard bit; together they give
the hash back; the tail value is in 0x20000 .. 0x3FFFF and its lowest set bit is at a position in 0 .. 17. -/
def Obligations.SplitUsesEveryHashBitOnce : Prop :=
  ∀ h : Word, (index h).toNat = h.toNat % 32768 ∧ (tail h).toNat = h.toNat / 32768 + 0x20000 ∧
    h.toNat = (tail h).toNat % 0x20000 * 32768 + (index h).toNat ∧
    0x20000 ≤ (tail h).toNat ∧ (tail h).toNat ≤ 0x3FFFF ∧
    ∃ q, q ≤ 17 ∧ (tail h).getLsbD q = true ∧ ∀ j, j < q → (tail h).getLsbD j = false

/-- R113: the rank of a hash is in 1 .. 18; it is 18 exactly when bits 31:15 are 0, and `k` in 1 .. 17 exactly when the
lowest set bit of bits 31:15 is their bit `k - 1`. -/
def Obligations.RankOfTailIsLowestSetBit : Prop :=
  ∀ h : Word, 1 ≤ rank ((tail h).setWidth 32) ∧ rank ((tail h).setWidth 32) ≤ 18 ∧
    (rank ((tail h).setWidth 32) = 18 ↔ h.extractLsb' 15 17 = 0#17) ∧
    ∀ k, 1 ≤ k → k ≤ 17 → (rank ((tail h).setWidth 32) = k ↔
      (h.getLsbD (15 + k - 1) = true ∧ ∀ j, 15 ≤ j → j < 15 + k - 1 → h.getLsbD j = false))

/-- R114: the closed form of the scan: for an operand that is not 0, 1 plus the largest `k` such that `2^k` divides it;
32 for 0. -/
def Obligations.RankIsOnePlusTrailingZeros : Prop :=
  (∀ t : Word, t ≠ 0#32 → ∃ k, rank t = k + 1 ∧ 2 ^ k ∣ t.toNat ∧ ¬ 2 ^ (k + 1) ∣ t.toNat ∧
    ∀ j, j < k → t.getLsbD j = false) ∧
  rank 0#32 = 32

/-! ### Repeats, order and runs -/

/-- R122: `ADD x` twice leaves the array of `ADD x` once, and it changes nothing where the register is already at or above
the rank. -/
def Obligations.RepeatedAddChangesNothing : Prop :=
  (∀ (x : Word) (s : State), ∃ t u, exec (.add x) s = .next t ∧ exec (.add x) t = .next u ∧ u.regs = t.regs) ∧
  (∀ (x : Word) (s : State), rankOfHash (mix x) ≤ (s.regs.read (bucketOf x)).toNat →
    ∃ t, exec (.add x) s = .next t ∧ t.regs = s.regs)

/-- R123: two `ADD`s commute; and after a clear the array depends only on the set of values added, each register being the
largest rank among the values of its bucket, or 0. -/
def Obligations.ArrayDependsOnlyOnTheSetAdded : Prop :=
  (∀ (x y : Word) (s : State), ∃ t u t' u', exec (.add x) s = .next t ∧ exec (.add y) t = .next u ∧
    exec (.add y) s = .next t' ∧ exec (.add x) t' = .next u' ∧ u.regs = u'.regs) ∧
  (∀ (xs ys : List Word) (s : State), s.rst = false → (∀ x, x ∈ xs ↔ x ∈ ys) →
    ∃ t u, runSteps (xs.length + 1) { s with cmds := encode .clear :: xs.map fun x => encode (.add x) } = .next t ∧
      runSteps (ys.length + 1) { s with cmds := encode .clear :: ys.map fun x => encode (.add x) } = .next u ∧
      t.regs = u.regs ∧
      ∀ i : Bucket, (t.regs.read i).toNat =
        ((xs.filter fun x => bucketOf x = i).map fun x => rankOfHash (mix x)).foldl max 0)

/-- R148: after a clear and the `ADD`s of any values, `V` is `M` less the number of distinct buckets among them, for every
mixing function. -/
def Obligations.ZeroCountIsMLessDistinctBuckets : Prop :=
  (∀ (xs : List Word) (s : State), s.rst = false →
    ∃ t rs r, runSteps (xs.length + 2)
        { s with cmds := (encode .clear :: xs.map fun x => encode (.add x)) ++ [encode .est] } = .next t ∧
      t.rsps = s.rsps ++ rs ++ [r] ∧ rs.length = xs.length + 1 ∧
      r.v.toNat + (xs.map bucketOf).toFinset.card = 32768) ∧
  (∀ (anyMix : Word → Word) (xs : List Word),
    ((xs.map anyMix).foldl recordHash Regs.cleared).zeroCount.toNat
      + (xs.map fun x => index (anyMix x)).toFinset.card = 32768)

/-- R147: two `EST` commands with only `EST` and reserved commands between them answer the same. -/
def Obligations.EstIsRepeatable : Prop :=
  ∀ (s : State) (ws : List CmdWord), s.rst = false →
    (∀ w ∈ ws, opField w = 0b10#2 ∨ opField w = 0b11#2) →
    ∃ t r mid, runSteps (ws.length + 2) { s with cmds := (encode .est :: ws) ++ [encode .est] } = .next t ∧
      t.rsps = s.rsps ++ ([r] ++ mid ++ [r]) ∧ mid.length = ws.length ∧ t.regs = s.regs

/-- R187: an illegal command anywhere in a stream has no effect: the array and every other response are those of the stream
without it. -/
def Obligations.IllegalCommandsArePrecise : Prop :=
  ∀ (s : State) (before after : List CmdWord) (w : CmdWord), s.rst = false → opField w = 0b11#2 →
    ∃ t u rs rs', runSteps (before.length + 1 + after.length) { s with cmds := before ++ w :: after } = .next t ∧
      runSteps (before.length + after.length) { s with cmds := before ++ after } = .next u ∧
      t.regs = u.regs ∧ rs.length = before.length ∧
      t.rsps = s.rsps ++ rs ++ [⟨1, 0, 0⟩] ++ rs' ∧ u.rsps = s.rsps ++ rs ++ rs'

/-- R16: a run is the left fold of the spec's command function over the commands: the final array and the responses, in
order, are those of the fold; the machine's list is only a representation of the array. -/
def Obligations.RunIsTheFoldOfCommands : Prop :=
  ∀ s : State, s.rst = false → (∀ i : Bucket, (s.regs.read i).toNat ≤ 32) →
    ∃ t, runSteps s.cmds.length s = .next t ∧ t.cmds = [] ∧ t.rst = false ∧
      t.regs.read = (foldCommands s.cmds s.regs.read).1 ∧
      t.rsps = s.rsps ++ (foldCommands s.cmds s.regs.read).2

/-- R66, R211, R213: whatever the host's pace in offering words and taking responses, the responses taken and those that
wait are, in order, the fold's responses to the words accepted so far, and the array is the fold's. -/
def Obligations.HostPaceDoesNotMatter : Prop :=
  ∀ (actions : List HostAction) (s : State), s.rst = false → (∀ i : Bucket, (s.regs.read i).toNat ≤ 32) →
    (∀ a ∈ actions, a ≠ .setRst true) →
    ∃ accepted : List CmdWord, s.cmds ++ offeredWords actions = accepted ++ (session actions s).1.cmds ∧
      (session actions s).1.regs.read = (foldCommands accepted s.regs.read).1 ∧
      (session actions s).2 ++ (session actions s).1.rsps = s.rsps ++ (foldCommands accepted s.regs.read).2

/-- R56, R123: where several hosts only add, every interleaving an arbiter can choose leaves the same array. -/
def Obligations.InterleavedAddsAgree : Prop :=
  ∀ (hosts : List (List CmdWord)) (seq seq' : List CmdWord) (s : State), s.rst = false →
    Interleaves hosts seq → Interleaves hosts seq' → (∀ l ∈ hosts, ∀ w ∈ l, opField w = 0b01#2) →
    ∃ t t', runSteps seq.length { s with cmds := seq } = .next t ∧
      runSteps seq'.length { s with cmds := seq' } = .next t' ∧ t.regs = t'.regs

/-! ### The pair (V, Z) -/

/-- R143: the ranges of `V` and `Z_fx`, with their extreme values. -/
def Obligations.CountAndSumRanges : Prop :=
  (∀ r : Regs, r.zeroCount.toNat ≤ 32768 ∧ (r.zeroCount.toNat = 32768 ↔ ∀ i : Bucket, r.read i = 0#8)) ∧
  (∀ r : Regs, (∀ i : Bucket, (r.read i).toNat ≤ 18) → 2 ^ 29 ≤ r.harmonicSum.toNat ∧ r.harmonicSum.toNat ≤ 2 ^ 47) ∧
  (∀ r : Regs, (∀ i : Bucket, r.read i = 18#8) → r.harmonicSum.toNat = 2 ^ 29) ∧
  (∀ r : Regs, (∀ i : Bucket, r.read i = 0#8) → r.harmonicSum.toNat = 2 ^ 47) ∧
  (∀ r : Regs, (∀ i : Bucket, (r.read i).toNat ≤ 32) →
    2 ^ 15 ≤ r.harmonicSum.toNat ∧ 0 < r.harmonicSum.toNat ∧ r.zeroCount.toNat * 2 ^ 32 ≤ r.harmonicSum.toNat)

/-- spec/95_test_vectors.md E1, second row: one register at `v`, the others 0, whichever it is. -/
def Obligations.OneNonzeroRegisterPair : Prop :=
  ∀ (r : Regs) (i : Bucket), (∀ j : Bucket, j ≠ i → r.read j = 0#8) → 1 ≤ (r.read i).toNat → (r.read i).toNat ≤ 32 →
    r.zeroCount.toNat = 32767 ∧ r.harmonicSum.toNat = 32767 * 2 ^ 32 + 2 ^ (32 - (r.read i).toNat)

/-- R34: `EST` in the reset state answers `V = 32768` and `Z_fx = 0x800000000000`, and the finalizer maps that to 0 for
every logarithm with (P1). -/
def Obligations.ResetStateEstimatesZero : Prop :=
  exec .est State.reset = .next { State.reset with rsps := [⟨0, 32768, 0x800000000000⟩] } ∧
    ∀ ln : F64 → F64, LnP1 ln → estimateWith ln State.reset.regs = 0

/-- R144: adding the terms `2^(-reg[i])` up in binary64, in any order, gives exactly `Z_fx / 2^32`: no addition rounds. -/
def Obligations.BinarySumEqualsFixedPointSum : Prop :=
  ∀ (r : Regs) (order : List Byte), (∀ i : Bucket, (r.read i).toNat ≤ 32) →
    order.Perm ((List.range 32768).map fun k => r.read (BitVec.ofNat 15 k)) →
    order.foldl (fun acc b => Binary64.fadd acc (Binary64.fdiv Binary64.one (Binary64.f64 (2 ^ b.toNat)))) Binary64.zero
        = zValue r.harmonicSum ∧
      Binary64.toRat (zValue r.harmonicSum) = (r.harmonicSum.toNat : ℚ) / 2 ^ 32

/-! ### The finalizer -/

/-- R161: the estimate of a state is `FINAL` of what `EST` answers in it. -/
def Obligations.EstimateIsFinalAfterEst : Prop :=
  ∀ s : State, ∃ t r, exec .est s = .next t ∧ t.rsps = s.rsps ++ [r] ∧ s.estimate = final r.v r.zfx

/-- R163: the branch is `V > 0` and nothing else: the linear-counting branch does not look at `Z_fx`, the raw branch not at
the logarithm; `V = M` gives 0 for every logarithm with (P1). -/
def Obligations.FinalBranchesOnZeroCountAlone : Prop :=
  (∀ (ln : F64 → F64) (v : BitVec 16) (z : BitVec 48), v ≠ 0 →
    finalWith ln v z = Binary64.trunc (Binary64.fmul (Binary64.f64 32768)
      (ln (Binary64.fdiv (Binary64.f64 32768) (Binary64.f64 v.toNat))))) ∧
  (∀ (ln ln' : F64 → F64) (z : BitVec 48), finalWith ln 0 z = finalWith ln' 0 z) ∧
  Binary64.fdiv (Binary64.f64 32768) (Binary64.f64 32768) = Binary64.one ∧
  Binary64.fmul (Binary64.f64 32768) Binary64.zero = Binary64.zero ∧
  (∀ (ln : F64 → F64) (z : BitVec 48), LnP1 ln → finalWith ln 32768 z = 0)

/-- R167: the bit patterns of the constants of the raw branch. -/
def Obligations.AlphaBitPatterns : Prop :=
  Binary64.fdiv Config.alphaK (Binary64.f64 32768) = 0x3F014395810624DD ∧
    Binary64.fadd Binary64.one (Binary64.fdiv Config.alphaK (Binary64.f64 32768)) = 0x3FF00022872B020C ∧
    alpha = 0x3FE714B1EDDC9938 ∧
    Binary64.fmul alpha (Binary64.fmul (Binary64.f64 32768) (Binary64.f64 32768)) = 0x41C714B1EDDC9938

/-- R164, R168: on the raw branch, for every `Z_fx` that is not 0, the value truncated is finite and not negative, and the
result is its floor. -/
def Obligations.RawResultIsTheFloor : Prop :=
  ∀ (ln : F64 → F64) (z : BitVec 48), z ≠ 0 →
    Binary64.isFinite (rawEstimate z) = true ∧ Binary64.sign (rawEstimate z) = false ∧
    ((finalWith ln 0 z).toNat : ℚ) ≤ Binary64.toRat (rawEstimate z) ∧
    Binary64.toRat (rawEstimate z) < ((finalWith ln 0 z).toNat : ℚ) + 1

/-- R167: the raw branch answers 47269 .. 6195715805 for the `Z_fx` a state without zero registers can have, and a larger
sum never gives a larger estimate. -/
def Obligations.RawResultRange : Prop :=
  (∀ (ln : F64 → F64) (z : BitVec 48), 2 ^ 29 ≤ z.toNat → z.toNat ≤ 2 ^ 46 →
    47269 ≤ (finalWith ln 0 z).toNat ∧ (finalWith ln 0 z).toNat ≤ 6195715805) ∧
  (∀ (ln : F64 → F64) (z z' : BitVec 48), 0 < z.toNat → z.toNat ≤ z'.toNat →
    (finalWith ln 0 z').toNat ≤ (finalWith ln 0 z).toNat)

/-- R167: the linear-counting branch answers at most 340695, for every logarithm with (P2), (P3) and a value at 32768.0 of
at most 10.39721. (P2) and (P3) are read as in log
entries 20 and 21. -/
def Obligations.LinearCountRange : Prop :=
  ∀ (ln : F64 → F64), LnP2 ln → LnP3 ln → Binary64.toRat (ln (Binary64.f64 32768)) ≤ 1039721 / 100000 →
    ∀ (v : BitVec 16) (z : BitVec 48), 1 ≤ v.toNat → v.toNat ≤ 32768 → (finalWith ln v z).toNat ≤ 340695

/-! ### Reset as the host drives it, and the response as bytes -/

/-- R200: asserting `rst`, at any time, puts the block in the reset state at once and produces no response, however soon it
is released. That an assertion of any length does so is the model's reading of a spec without pin timing (log entry 3). -/
def Obligations.AssertingResetActsAtOnce : Prop :=
  ∀ s : State,
    (∀ i : Bucket, (act s (.setRst true)).1.regs.read i = 0#8) ∧ (act s (.setRst true)).1.rsps = [] ∧
    (act s (.setRst true)).2 = none ∧ (act s (.setRst true)).1.rst = true ∧
    session [.setRst true, .setRst false] s = ({ State.reset with cmds := s.cmds }, [])

/-- R201, R212: a reset that arrives at any point of a session starts a new run: what follows goes as from the reset state
with the words the host still offers, and of the old run only the responses already taken are had. That the offered words
stay offered is the model's choice (log entry 3). -/
def Obligations.ResetStartsANewRun : Prop :=
  ∀ (before after : List HostAction) (s : State),
    session (before ++ .setRst true :: after) s =
      ((session after { State.reset with cmds := (session before s).1.cmds, rst := true }).1,
        (session before s).2 ++ (session after { State.reset with cmds := (session before s).1.cmds, rst := true }).2)

/-- R201: while `rst` is asserted the block holds the reset state: no register is above 0, no response waits. Whatever the
host does keeps it so. -/
def Obligations.HeldResetKeepsTheResetState : Prop :=
  ∀ (actions : List HostAction) (s : State),
    (s.rst = true → s.regs = State.reset.regs ∧ s.rsps = []) →
    (session actions s).1.rst = true →
      (session actions s).1.regs = State.reset.regs ∧ (session actions s).1.rsps = []

/-- R44, R65: a response's nine bytes, the first holding bits 7 to 0, are read back as the response, with any bytes after
them. The padding of the ninth byte is the model's choice (log entry 12). -/
def Obligations.ResponseBytesReadBack : Prop :=
  ∀ (r : Response) (rest : List Byte), Response.ofBytes (r.bytes ++ rest) = .ok (r, rest) ∧
    r.bytes.length = 9 ∧ r.bytes.head? = some (r.word.extractLsb' 0 8) ∧
    r.bytes.getLast? = some ((r.word.extractLsb' 64 1).setWidth 8)
end

