-- ==== Sys2Proof/Laws/Binary64.lean ====
section
/-! SUPPORT. What rounding to binary64 is, said once: the nearest multiple of the last place, ties to even. -/

namespace Sys2Proof.Machine.Binary64

/-- Rounding a quotient: the nearest integer, ties to even. -/
theorem roundDiv_spec (n : Nat) {d : Nat} (hd : 0 < d) :
    2 * n ≤ (2 * roundDiv n d + 1) * d ∧ 2 * roundDiv n d * d ≤ 2 * n + d ∧
      n / d ≤ roundDiv n d ∧ roundDiv n d ≤ n / d + 1 := by
  have hn : d * (n / d) + n % d = n := Nat.div_add_mod n d
  have hm : n % d < d := Nat.mod_lt n hd
  have hq : n / d % 2 < 2 := Nat.mod_lt _ (by norm_num)
  unfold roundDiv
  generalize n / d = q at *
  generalize n % d = m at *
  subst hn
  split_ifs with h1 h2
  · exact ⟨by nlinarith, by nlinarith, le_refl _, Nat.le_succ _⟩
  · exact ⟨by nlinarith, by nlinarith, Nat.le_succ _, le_refl _⟩
  · have h3 : 2 * m = d := by omega
    have hp : q % 2 = 0 ∨ q % 2 = 1 := by omega
    rcases hp with hp | hp <;> rw [hp] <;> refine ⟨?_, ?_, ?_, ?_⟩ <;> first | omega | nlinarith

/-- An exact quotient is not rounded. -/
theorem roundDiv_mul (q : Nat) {d : Nat} (hd : 0 < d) : roundDiv (q * d) d = q := by
  simp [roundDiv, hd]

/-- Rounding a quotient does not reverse an order. -/
theorem roundDiv_mono {n n' d : Nat} (hd : 0 < d) (h : n ≤ n') : roundDiv n d ≤ roundDiv n' d := by
  by_contra hc
  have hc' : roundDiv n' d + 1 ≤ roundDiv n d := by omega
  obtain ⟨a1, a2, a3, a4⟩ := roundDiv_spec n hd
  obtain ⟨b1, b2, b3, b4⟩ := roundDiv_spec n' hd
  have hq : n / d ≤ n' / d := Nat.div_le_div_right h
  have e1 : roundDiv n' d = n' / d := by omega
  have e2 : roundDiv n d = n / d + 1 := by omega
  have e3 : n / d = n' / d := by omega
  have hm : n % d ≤ n' % d := by
    have h1 := Nat.div_add_mod n d
    have h2 := Nat.div_add_mod n' d
    rw [e3] at h1
    omega
  unfold roundDiv at e1 e2
  rw [e3] at e2
  split_ifs at e1 e2 <;> omega

/-- The number of units of bits 62:0 below an infinity. -/
theorem units_pack (negative : Bool) {mag : Nat} (h : mag < infMagnitude) :
    units (pack negative mag) = if mag < 2 ^ 52 then mag else (2 ^ 52 + mag % 2 ^ 52) * 2 ^ (mag / 2 ^ 52 - 1) := by
  have hi : mag < 2047 * 2 ^ 52 := h
  have e : (pack negative mag).toNat % 2 ^ 63 = mag := by
    cases negative <;> simp only [pack, BitVec.toNat_ofNat] <;> simp <;> omega
  have ee : expField (pack negative mag) = mag / 2 ^ 52 := by
    unfold expField
    omega
  have ef : fraction (pack negative mag) = mag % 2 ^ 52 := by
    unfold fraction
    omega
  unfold units
  rw [ee, ef]
  by_cases hs : mag < 2 ^ 52
  · have h0 : mag / 2 ^ 52 = 0 := Nat.div_eq_of_lt hs
    rw [if_pos h0, if_pos hs, Nat.mod_eq_of_lt hs]
  · have h0 : ¬ mag / 2 ^ 52 = 0 := by omega
    rw [if_neg h0, if_neg hs]

theorem isFinite_pack (negative : Bool) {mag : Nat} (h : mag < infMagnitude) : isFinite (pack negative mag) = true := by
  have hi : mag < 2047 * 2 ^ 52 := h
  have e : (pack negative mag).toNat % 2 ^ 63 = mag := by
    cases negative <;> simp only [pack, BitVec.toNat_ofNat] <;> simp <;> omega
  exact decide_eq_true (by unfold expField; omega)

theorem sign_pack (negative : Bool) {mag : Nat} (h : mag ≤ infMagnitude) : sign (pack negative mag) = negative := by
  have hi : mag ≤ 2047 * 2 ^ 52 := h
  rw [sign, BitVec.msb_eq_decide]
  cases negative <;> simp only [pack, BitVec.toNat_ofNat] <;> simp <;> omega

/-- A significand `m` with last place `2^k` units: what the packed bits stand for. -/
theorem units_pack_significand (negative : Bool) {k m : Nat} (hm : m ≤ 2 ^ 53) (hk : k = 0 ∨ 2 ^ 52 ≤ m)
    (h : k * 2 ^ 52 + m < infMagnitude) : units (pack negative (k * 2 ^ 52 + m)) = m * 2 ^ k := by
  rw [units_pack negative h]
  by_cases hs : k * 2 ^ 52 + m < 2 ^ 52
  · have hk0 : k = 0 := by omega
    subst hk0
    rw [if_pos hs, pow_zero, Nat.zero_mul, Nat.zero_add, Nat.mul_one]
  · rw [if_neg hs]
    by_cases hb : m < 2 ^ 53
    · have hd : (k * 2 ^ 52 + m) / 2 ^ 52 = k + 1 := by omega
      have hr : (k * 2 ^ 52 + m) % 2 ^ 52 = m - 2 ^ 52 := by omega
      rw [hd, hr, Nat.add_sub_cancel, show 2 ^ 52 + (m - 2 ^ 52) = m by omega]
    · have hm' : m = 2 ^ 53 := by omega
      have hd : (k * 2 ^ 52 + m) / 2 ^ 52 = k + 2 := by omega
      have hr : (k * 2 ^ 52 + m) % 2 ^ 52 = 0 := by omega
      rw [hd, hr, hm', show k + 2 - 1 = k + 1 by omega, pow_succ 2 k]
      ring

/-- What rounding gives: a last place `2^k` and a significand that is the quotient rounded to it; the last place is the
smallest unit, or the significand is full. -/
theorem roundUnits_spec (num : Nat) {den : Nat} (hd : 0 < den) :
    ∃ k m, roundUnits num den = min (k * 2 ^ 52 + m) infMagnitude ∧ m = roundDiv num (den * 2 ^ k) ∧ m ≤ 2 ^ 53 ∧
      (k = 0 ∨ 2 ^ 52 ≤ m) ∧ k = (num / den).log2 - 52 := by
  refine ⟨(num / den).log2 - 52, _, rfl, rfl, ?_, ?_, rfl⟩
  all_goals
    have hlt : num / den < 2 ^ ((num / den).log2 + 1) := Nat.lt_log2_self
    have hdiv : num / (den * 2 ^ ((num / den).log2 - 52)) = num / den / 2 ^ ((num / den).log2 - 52) :=
      (Nat.div_div_eq_div_mul _ _ _).symm
    obtain ⟨-, -, h3, h4⟩ := roundDiv_spec num (Nat.mul_pos hd (Nat.two_pow_pos ((num / den).log2 - 52)))
  · have : num / den / 2 ^ ((num / den).log2 - 52) < 2 ^ 53 := by
      rw [Nat.div_lt_iff_lt_mul (Nat.two_pow_pos _), ← pow_add]
      exact lt_of_lt_of_le hlt (Nat.pow_le_pow_right (by norm_num) (by omega))
    omega
  · by_cases hk : (num / den).log2 - 52 = 0
    · exact .inl hk
    · right
      have hne : num / den ≠ 0 := by
        intro h0
        rw [h0] at hk
        exact hk rfl
      have hge : 2 ^ (num / den).log2 ≤ num / den := Nat.log2_self_le hne
      have : 2 ^ 52 ≤ num / den / 2 ^ ((num / den).log2 - 52) := by
        rw [Nat.le_div_iff_mul_le (Nat.two_pow_pos _), ← pow_add]
        exact le_trans (Nat.pow_le_pow_right (by norm_num) (by omega)) hge
      omega

/-- A number of units with at most 53 significant bits is not rounded. -/
theorem units_roundUnits_exact (negative : Bool) {u num den : Nat} (hd : 0 < den) (hu : num = u * den)
    (h : ∃ k m, u = m * 2 ^ k ∧ m < 2 ^ 53) (hlog : u.log2 < 2098) :
    units (pack negative (roundUnits num den)) = u ∧ roundUnits num den < infMagnitude := by
  subst hu
  obtain ⟨k, m, h1, h2, h3, h4, h5⟩ := roundUnits_spec (u * den) hd
  rw [Nat.mul_div_cancel u hd] at h5
  obtain ⟨j, n, hj, hn⟩ := h
  have hdvd : 2 ^ k ∣ u := by
    by_cases hk : k ≤ j
    · rw [hj]
      exact Dvd.dvd.mul_left (pow_dvd_pow 2 hk) n
    · exfalso
      have hne : u ≠ 0 := by
        rintro rfl
        simp at h5
        omega
      have hge : 2 ^ u.log2 ≤ u := Nat.log2_self_le hne
      have hlt : u < 2 ^ (53 + j) := by
        rw [hj, pow_add]
        exact Nat.mul_lt_mul_of_pos_right hn (Nat.two_pow_pos j)
      have := (Nat.pow_lt_pow_iff_right (by norm_num : 1 < 2)).mp (lt_of_le_of_lt hge hlt)
      omega
  obtain ⟨c, hc⟩ := hdvd
  have hm : m = c := by
    rw [h2, hc, show 2 ^ k * c * den = c * (den * 2 ^ k) by ring]
    exact roundDiv_mul c (Nat.mul_pos hd (Nat.two_pow_pos k))
  have hkb : k * 2 ^ 52 + m < infMagnitude := by
    have : infMagnitude = 2047 * 2 ^ 52 := rfl
    have hmb : m < 2 ^ 53 := by
      by_cases hne : u = 0
      · subst hne
        have h0 : k = 0 := by simpa using h5
        subst h0
        simp at hc
        omega
      · have hlt : u < 2 ^ (u.log2 + 1) := Nat.lt_log2_self
        have : u < 2 ^ (53 + k) := lt_of_lt_of_le hlt (Nat.pow_le_pow_right (by norm_num) (by omega))
        rw [hc, pow_add, hm.symm] at this
        nlinarith [Nat.two_pow_pos k]
    omega
  rw [h1, Nat.min_eq_left (le_of_lt hkb)]
  refine ⟨?_, hkb⟩
  rw [units_pack_significand negative h3 h4 hkb, hm, hc]
  ring

end Sys2Proof.Machine.Binary64
end

