-- ==== Sys2Proof/Laws/Decode.lean ====
section
/-! SUPPORT. The bytes of a number: how many they are and which number they stand for. -/

namespace Sys2Proof

@[simp] theorem length_natBytes (n w : Nat) : (natBytes n w).length = n := by
  induction n generalizing w with
  | zero => rfl
  | succ n ih => simp [natBytes, ih]

/-- Reading the bytes of a number back gives what of it fits them. -/
theorem natOfBytes_natBytes (n w : Nat) : natOfBytes (natBytes n w) = w % 256 ^ n := by
  induction n generalizing w with
  | zero => simp [natBytes, natOfBytes, Nat.mod_one]
  | succ n ih =>
    have split : w % (256 * 256 ^ n) = w % 256 + 256 * (w / 256 % 256 ^ n) := Nat.mod_mul
    rw [natBytes, natOfBytes, ih, BitVec.toNat_ofNat, pow_succ' 256 n]
    exact split.symm

end Sys2Proof
end

