-- ==== Sys2Proof/Laws/State.lean ====
section
/-! SUPPORT. One lemma per field per update of the state. -/

namespace Sys2Proof.Machine

@[simp] theorem State.respond_regs (s : State) (r : Response) : (s.respond r).regs = s.regs := rfl
@[simp] theorem State.respond_cmds (s : State) (r : Response) : (s.respond r).cmds = s.cmds := rfl
@[simp] theorem State.respond_rsps (s : State) (r : Response) : (s.respond r).rsps = s.rsps ++ [r] := rfl
@[simp] theorem State.respond_rst (s : State) (r : Response) : (s.respond r).rst = s.rst := rfl

@[simp] theorem State.setRegs_regs (s : State) (r : Regs) : (s.setRegs r).regs = r := rfl
@[simp] theorem State.setRegs_cmds (s : State) (r : Regs) : (s.setRegs r).cmds = s.cmds := rfl
@[simp] theorem State.setRegs_rsps (s : State) (r : Regs) : (s.setRegs r).rsps = s.rsps := rfl
@[simp] theorem State.setRegs_rst (s : State) (r : Regs) : (s.setRegs r).rst = s.rst := rfl

@[simp] theorem State.raiseIllegalCommand_regs (s : State) : s.raiseIllegalCommand.regs = s.regs := rfl
@[simp] theorem State.raiseIllegalCommand_cmds (s : State) : s.raiseIllegalCommand.cmds = s.cmds := rfl
@[simp] theorem State.raiseIllegalCommand_rsps (s : State) :
    s.raiseIllegalCommand.rsps = s.rsps ++ [Response.illegal] := rfl
@[simp] theorem State.raiseIllegalCommand_rst (s : State) : s.raiseIllegalCommand.rst = s.rst := rfl

@[simp] theorem State.enterReset_regs (s : State) : s.enterReset.regs = Regs.cleared := rfl
@[simp] theorem State.enterReset_cmds (s : State) : s.enterReset.cmds = s.cmds := rfl
@[simp] theorem State.enterReset_rsps (s : State) : s.enterReset.rsps = [] := rfl
@[simp] theorem State.enterReset_rst (s : State) : s.enterReset.rst = s.rst := rfl

@[simp] theorem State.setRst_true_regs (s : State) : (s.setRst true).regs = Regs.cleared := rfl
@[simp] theorem State.setRst_true_rsps (s : State) : (s.setRst true).rsps = [] := rfl
@[simp] theorem State.setRst_false_regs (s : State) : (s.setRst false).regs = s.regs := rfl
@[simp] theorem State.setRst_false_rsps (s : State) : (s.setRst false).rsps = s.rsps := rfl
@[simp] theorem State.setRst_cmds (s : State) (b : Bool) : (s.setRst b).cmds = s.cmds := by cases b <;> rfl
@[simp] theorem State.setRst_rst (s : State) (b : Bool) : (s.setRst b).rst = b := by cases b <;> rfl

@[simp] theorem State.offer_regs (s : State) (w : CmdWord) : (s.offer w).regs = s.regs := rfl
@[simp] theorem State.offer_cmds (s : State) (w : CmdWord) : (s.offer w).cmds = s.cmds ++ [w] := rfl
@[simp] theorem State.offer_rsps (s : State) (w : CmdWord) : (s.offer w).rsps = s.rsps := rfl
@[simp] theorem State.offer_rst (s : State) (w : CmdWord) : (s.offer w).rst = s.rst := rfl

@[simp] theorem State.offerFirst_regs (s : State) (w : CmdWord) : (s.offerFirst w).regs = s.regs := rfl
@[simp] theorem State.offerFirst_cmds (s : State) (w : CmdWord) : (s.offerFirst w).cmds = w :: s.cmds := rfl
@[simp] theorem State.offerFirst_rsps (s : State) (w : CmdWord) : (s.offerFirst w).rsps = s.rsps := rfl
@[simp] theorem State.offerFirst_rst (s : State) (w : CmdWord) : (s.offerFirst w).rst = s.rst := rfl

@[simp] theorem State.reset_regs : State.reset.regs = Regs.cleared := rfl
@[simp] theorem State.reset_cmds : State.reset.cmds = [] := rfl
@[simp] theorem State.reset_rsps : State.reset.rsps = [] := rfl
@[simp] theorem State.reset_rst : State.reset.rst = false := rfl

/-- A transfer on the command port takes the next word and changes nothing else. -/
theorem State.accept_eq_some {s s' : State} {w : CmdWord} (h : s.accept = some (w, s')) :
    s.cmds = w :: s'.cmds ∧ s'.regs = s.regs ∧ s'.rsps = s.rsps ∧ s'.rst = s.rst := by
  unfold State.accept at h
  split at h
  · cases h
  · rename_i hc
    cases h
    exact ⟨hc, rfl, rfl, rfl⟩

/-- No transfer happens exactly where no word is offered. -/
theorem State.accept_eq_none {s : State} (h : s.accept = none) : s.cmds = [] := by
  unfold State.accept at h
  split at h
  · assumption
  · cases h

/-- Taking a response takes the oldest and changes nothing else. -/
theorem State.take_eq_some {s s' : State} {r : Response} (h : s.take = some (r, s')) :
    s.rsps = r :: s'.rsps ∧ s'.regs = s.regs ∧ s'.cmds = s.cmds ∧ s'.rst = s.rst := by
  unfold State.take at h
  split at h
  · cases h
  · rename_i hc
    cases h
    exact ⟨hc, rfl, rfl, rfl⟩

end Sys2Proof.Machine
end

