-- ==== Sys2Proof/Laws/Regs.lean ====
section
/-! SUPPORT. The laws of the register array: reads after writes, the canonical form, the register pass. -/

namespace Sys2Proof

@[simp] theorem Regs.getAt_cleared (a : Nat) : Regs.getAt Regs.cleared a = 0#8 := rfl

@[simp] theorem Regs.read_cleared (i : Bucket) : Regs.read Regs.cleared i = 0#8 := rfl

/-- A register written with a value that is not 0 holds it. -/
theorem Regs.getAt_put_self (r : Regs) (a : Nat) {v : Byte} (hv : v ≠ 0#8) : Regs.getAt (Regs.put r a v) a = v := by
  induction r with
  | nil => simp [Regs.put, Regs.unlisted, hv, Regs.getAt]
  | cons c cs ih =>
    simp only [Regs.put, Regs.unlisted, hv, if_false]
    split
    · simp [Regs.getAt]
    · split
      · simp [Regs.getAt]
      · rename_i h1 h2
        have h3 : ¬ c.1 = a := fun h => h2 h.symm
        simp [Regs.getAt, h3, h1, ih]

/-- A write of a value that is not 0 changes no other register. -/
theorem Regs.getAt_put_other (r : Regs) {a b : Nat} {v : Byte} (hv : v ≠ 0#8) (hab : b ≠ a) :
    Regs.getAt (Regs.put r a v) b = Regs.getAt r b := by
  induction r with
  | nil =>
    simp only [Regs.put, Regs.unlisted, hv, if_false, Regs.getAt]
    split <;> simp_all
  | cons c cs ih =>
    simp only [Regs.put, Regs.unlisted, hv, if_false]
    split
    · rename_i h1
      simp only [Regs.getAt, Regs.unlisted]
      by_cases hb : b < a
      · have e1 : ¬ a = b := fun h => hab h.symm
        have e2 : ¬ c.1 = b := by omega
        have e3 : b < c.1 := by omega
        simp [e1, e2, e3, hb]
      · have e1 : ¬ a = b := fun h => hab h.symm
        simp [e1, hb]
    · split
      · rename_i h1 h2
        subst h2
        have e1 : ¬ c.1 = b := fun h => hab h.symm
        simp [Regs.getAt, e1]
      · simp only [Regs.getAt, ih]

/-- In canonical form a register below the smallest key reads 0. -/
theorem Regs.getAt_below {lo : Nat} {r : Regs} (h : Regs.wfFrom lo r = true) {a : Nat} (ha : a < lo) : Regs.getAt r a = 0#8 := by
  cases r with
  | nil => rfl
  | cons c cs =>
    simp only [Regs.wfFrom, Bool.and_eq_true, decide_eq_true_eq] at h
    have e1 : ¬ c.1 = a := by omega
    have e2 : a < c.1 := by omega
    simp [Regs.getAt, e1, e2, Regs.unlisted]

theorem Regs.wfFrom_mono {lo lo' : Nat} {r : Regs} (h : Regs.wfFrom lo r = true) (hl : lo' ≤ lo) :
    Regs.wfFrom lo' r = true := by
  cases r with
  | nil => rfl
  | cons c cs =>
    simp only [Regs.wfFrom, Bool.and_eq_true, decide_eq_true_eq] at h ⊢
    exact ⟨⟨⟨by omega, h.1.1.2⟩, h.1.2⟩, h.2⟩

/-- Every write keeps the canonical form. -/
theorem Regs.wfFrom_put {lo : Nat} {r : Regs} (h : Regs.wfFrom lo r = true) {a : Nat} (hlo : lo ≤ a)
    (ha : a < Config.m) (v : Byte) : Regs.wfFrom lo (Regs.put r a v) = true := by
  induction r generalizing lo with
  | nil => by_cases hv : v = Regs.unlisted <;> simp [Regs.put, Regs.wfFrom, hv, hlo, ha]
  | cons c cs ih =>
    have h0 := h
    simp only [Regs.wfFrom, Bool.and_eq_true, decide_eq_true_eq] at h
    obtain ⟨⟨⟨h1, h2⟩, h3⟩, h4⟩ := h
    simp only [Regs.put]
    split
    · rename_i hlt
      by_cases hv : v = Regs.unlisted
      · simpa [hv] using h0
      · simp only [hv, if_false, Regs.wfFrom, Bool.and_eq_true, decide_eq_true_eq]
        exact ⟨⟨⟨hlo, ha⟩, hv⟩, ⟨⟨by omega, h2⟩, h3⟩, h4⟩
    · split
      · rename_i hne heq
        by_cases hv : v = Regs.unlisted
        · simpa [hv] using Regs.wfFrom_mono h4 (by omega : lo ≤ c.1 + 1)
        · simp only [hv, if_false, Regs.wfFrom, Bool.and_eq_true, decide_eq_true_eq]
          exact ⟨⟨⟨hlo, ha⟩, hv⟩, heq ▸ h4⟩
      · rename_i hge hne
        simp only [Regs.wfFrom, Bool.and_eq_true, decide_eq_true_eq]
        exact ⟨⟨⟨h1, h2⟩, h3⟩, ih h4 (by omega)⟩

/-- The write primitive keeps the canonical form. -/
theorem Regs.wf_write {r : Regs} (h : r.wf = true) (i : Bucket) (v : Byte) : (r.write i v).wf = true :=
  Regs.wfFrom_put h (Nat.zero_le _) i.isLt v

@[simp] theorem Regs.wf_cleared : Regs.wf Regs.cleared = true := rfl

/-- In canonical form a register written holds the value written, 0 included. -/
theorem Regs.getAt_put_self_wf {lo : Nat} {r : Regs} (h : Regs.wfFrom lo r = true) (a : Nat) (v : Byte) :
    Regs.getAt (Regs.put r a v) a = v := by
  by_cases hv : v = 0#8
  · subst hv
    induction r generalizing lo with
    | nil => rfl
    | cons c cs ih =>
      simp only [Regs.wfFrom, Bool.and_eq_true, decide_eq_true_eq] at h
      simp only [Regs.put, Regs.unlisted, if_true]
      split
      · rename_i hlt
        have e1 : ¬ c.1 = a := by omega
        simp [Regs.getAt, e1, hlt, Regs.unlisted]
      · split
        · exact Regs.getAt_below h.2 (by omega)
        · rename_i h1 h2
          have h3 : ¬ c.1 = a := fun h => h2 h.symm
          simp [Regs.getAt, h3, h1, ih h.2]
  · exact Regs.getAt_put_self r a hv

/-- In canonical form a write changes no other register. -/
theorem Regs.getAt_put_other_wf {lo : Nat} {r : Regs} (h : Regs.wfFrom lo r = true) {a b : Nat} (v : Byte) (hab : b ≠ a) :
    Regs.getAt (Regs.put r a v) b = Regs.getAt r b := by
  by_cases hv : v = 0#8
  · subst hv
    induction r generalizing lo with
    | nil => rfl
    | cons c cs ih =>
      simp only [Regs.wfFrom, Bool.and_eq_true, decide_eq_true_eq] at h
      simp only [Regs.put, Regs.unlisted, if_true]
      split
      · rfl
      · split
        · rename_i h1 h2
          by_cases hb : b < c.1
          · have e1 : ¬ c.1 = b := by omega
            simp [Regs.getAt, e1, hb, Regs.unlisted, Regs.getAt_below h.2 (by omega : b < c.1 + 1)]
          · have e1 : ¬ c.1 = b := by omega
            simp [Regs.getAt, e1, hb]
        · simp only [Regs.getAt, ih h.2]
  · exact Regs.getAt_put_other r hv hab

/-- R41, R42: in canonical form `reg[i] <- v` makes register `i` read `v`. -/
theorem Regs.read_write_self {r : Regs} (h : r.wf = true) (i : Bucket) (v : Byte) : (r.write i v).read i = v :=
  Regs.getAt_put_self_wf h i.toNat v

/-- R42: in canonical form `reg[i] <- v` changes no other register. -/
theorem Regs.read_write_other {r : Regs} (h : r.wf = true) {i j : Bucket} (v : Byte) (hij : j ≠ i) :
    (r.write i v).read j = r.read j :=
  Regs.getAt_put_other_wf h v fun e => hij (BitVec.eq_of_toNat_eq e)

/-- The same on every list, for a value that is not 0. -/
theorem Regs.read_write_self_pos (r : Regs) (i : Bucket) {v : Byte} (hv : v ≠ 0#8) : (r.write i v).read i = v :=
  Regs.getAt_put_self r i.toNat hv

/-- The same on every list, for a value that is not 0. -/
theorem Regs.read_write_other_pos (r : Regs) {i j : Bucket} {v : Byte} (hv : v ≠ 0#8) (hij : j ≠ i) :
    (r.write i v).read j = r.read j :=
  Regs.getAt_put_other r hv fun e => hij (BitVec.eq_of_toNat_eq e)

/-- Two arrays in canonical form that read alike are equal lists. -/
theorem Regs.wfFrom_ext {lo : Nat} {r q : Regs} (hr : Regs.wfFrom lo r = true) (hq : Regs.wfFrom lo q = true)
    (h : ∀ a < Config.m, Regs.getAt r a = Regs.getAt q a) : r = q := by
  induction r generalizing lo q with
  | nil =>
    cases q with
    | nil => rfl
    | cons d ds =>
      simp only [Regs.wfFrom, Bool.and_eq_true, decide_eq_true_eq] at hq
      have := h d.1 hq.1.1.2
      simp only [Regs.getAt, if_true] at this
      exact absurd this.symm hq.1.2
  | cons c cs ih =>
    have hr0 := hr
    simp only [Regs.wfFrom, Bool.and_eq_true, decide_eq_true_eq] at hr
    obtain ⟨⟨⟨h1, h2⟩, h3⟩, h4⟩ := hr
    cases q with
    | nil =>
      have := h c.1 h2
      simp only [Regs.getAt, if_true] at this
      exact absurd this h3
    | cons d ds =>
      have hq0 := hq
      simp only [Regs.wfFrom, Bool.and_eq_true, decide_eq_true_eq] at hq
      obtain ⟨⟨⟨g1, g2⟩, g3⟩, g4⟩ := hq
      have key : c.1 = d.1 := by
        rcases Nat.lt_trichotomy c.1 d.1 with hlt | heq | hgt
        · have := h c.1 h2
          have e : ¬ d.1 = c.1 := by omega
          simp only [Regs.getAt, if_true, e, if_false, hlt] at this
          exact absurd this h3
        · exact heq
        · have := h d.1 g2
          have e : ¬ c.1 = d.1 := by omega
          simp only [Regs.getAt, if_true, e, if_false, hgt] at this
          exact absurd this.symm g3
      have val : c.2 = d.2 := by
        have := h c.1 h2
        simpa [Regs.getAt, key] using this
      have cd : c = d := Prod.ext key val
      subst cd
      refine congrArg (c :: ·) (ih h4 g4 ?_)
      intro a ha
      by_cases hac : a < c.1 + 1
      · rw [Regs.getAt_below h4 hac, Regs.getAt_below g4 hac]
      · have := h a ha
        have e1 : ¬ c.1 = a := by omega
        have e2 : ¬ a < c.1 := by omega
        simpa [Regs.getAt, e1, e2] using this

/-- R41: two arrays in canonical form whose registers read alike are equal. -/
theorem Regs.ext_of_read {r q : Regs} (hr : r.wf = true) (hq : q.wf = true) (h : ∀ i : Bucket, r.read i = q.read i) :
    r = q := by
  refine Regs.wfFrom_ext hr hq fun a ha => ?_
  have e : (BitVec.ofNat 15 a).toNat = a := by
    rw [BitVec.toNat_ofNat]
    exact Nat.mod_eq_of_lt ha
  simpa [Regs.read, e] using h (BitVec.ofNat 15 a)

/-- What the register pass adds up, on every list (R141, R142). -/
theorem Regs.sumFrom_eq (f : Byte → Nat) (r : Regs) (lo : Nat) :
    Regs.sumFrom f lo r = ∑ a ∈ Finset.Ico lo Config.m, f (Regs.getAt r a) := by
  induction r generalizing lo with
  | nil => simp [Regs.sumFrom, Regs.getAt]
  | cons c cs ih =>
    have hbelow : ∀ a, a < c.1 → Regs.getAt (c :: cs) a = Regs.unlisted := by
      intro a ha
      have e1 : ¬ c.1 = a := by omega
      simp [Regs.getAt, e1, ha]
    have habove : ∀ a, c.1 < a → Regs.getAt (c :: cs) a = Regs.getAt cs a := by
      intro a ha
      have e1 : ¬ c.1 = a := by omega
      have e2 : ¬ a < c.1 := by omega
      simp [Regs.getAt, e1, e2]
    have hat : Regs.getAt (c :: cs) c.1 = c.2 := by simp [Regs.getAt]
    rw [Regs.sumFrom, ih]
    have tailSum : ∑ a ∈ Finset.Ico (max lo (c.1 + 1)) Config.m, f (Regs.getAt cs a)
        = ∑ a ∈ Finset.Ico (max lo (c.1 + 1)) Config.m, f (Regs.getAt (c :: cs) a) := by
      refine Finset.sum_congr rfl fun a ha => ?_
      rw [Finset.mem_Ico] at ha
      rw [habove a (by omega)]
    rw [tailSum]
    by_cases h1 : lo ≤ c.1
    · by_cases h2 : c.1 < Config.m
      · have hmax : max lo (c.1 + 1) = c.1 + 1 := by omega
        have hmin : min c.1 Config.m = c.1 := by omega
        have headSum : ∑ a ∈ Finset.Ico lo c.1, f (Regs.getAt (c :: cs) a) = (c.1 - lo) * f Regs.unlisted := by
          rw [Finset.sum_congr rfl fun a ha => by rw [hbelow a (Finset.mem_Ico.mp ha).2]]
          simp
        rw [hmax, hmin, if_pos ⟨h1, h2⟩, ← Finset.sum_Ico_consecutive _ h1 (le_of_lt h2),
          Finset.sum_eq_sum_Ico_succ_bot h2, headSum, hat]
        omega
      · have hmin : min c.1 Config.m = Config.m := by omega
        have hempty : Finset.Ico (max lo (c.1 + 1)) Config.m = ∅ := Finset.Ico_eq_empty (by omega)
        have headSum : ∑ a ∈ Finset.Ico lo Config.m, f (Regs.getAt (c :: cs) a) = (Config.m - lo) * f Regs.unlisted := by
          rw [Finset.sum_congr rfl fun a ha => by rw [hbelow a (by have := (Finset.mem_Ico.mp ha).2; omega)]]
          simp
        rw [hmin, if_neg fun h => h2 h.2, hempty, headSum]
        simp
    · have hmax : max lo (c.1 + 1) = lo := by omega
      have hmin : min c.1 Config.m - lo = 0 := by omega
      rw [hmax, hmin, if_neg fun h => h1 h.1]
      simp

/-- The register pass is the sum over all `M` registers (R141). -/
theorem Regs.sumAll_eq (f : Byte → Nat) (r : Regs) :
    Regs.sumAll f r = ∑ k ∈ Finset.range 32768, f (r.read (BitVec.ofNat 15 k)) := by
  rw [Regs.sumAll, Regs.sumFrom_eq, Finset.range_eq_Ico]
  refine Finset.sum_congr rfl fun a ha => ?_
  have e : (BitVec.ofNat 15 a).toNat = a := by
    rw [BitVec.toNat_ofNat]
    exact Nat.mod_eq_of_lt (Finset.mem_Ico.mp ha).2
  rw [Regs.read, e]

/-- The check the register pass makes says that every register is at most `n`. -/
theorem Regs.allLe_iff (n : Nat) (r : Regs) : Regs.allLe n r = true ↔ ∀ i : Bucket, (r.read i).toNat ≤ n := by
  rw [Regs.allLe, decide_eq_true_eq, Regs.sumAll_eq, Finset.sum_eq_zero_iff]
  constructor
  · intro h i
    have := h i.toNat (Finset.mem_range.mpr i.isLt)
    simp only [BitVec.ofNat_toNat, BitVec.setWidth_eq, aboveTerm] at this
    by_contra hc
    simp [Nat.lt_of_not_le hc] at this
  · intro h k _
    simp [aboveTerm, Nat.not_lt.mpr (h (BitVec.ofNat 15 k))]

/-- Two writes of values that are not 0 to different registers commute, on every list. -/
theorem Regs.put_comm (r : Regs) {a b : Nat} {v w : Byte} (hab : a ≠ b) (hv : v ≠ 0#8) (hw : w ≠ 0#8) :
    Regs.put (Regs.put r a v) b w = Regs.put (Regs.put r b w) a v := by
  induction r with
  | nil =>
    simp only [Regs.put, Regs.unlisted, hv, hw, if_false]
    split_ifs <;> first | rfl | omega
  | cons c cs ih =>
    simp only [Regs.put, Regs.unlisted, hv, hw, if_false]
    split_ifs <;> simp only [Regs.put, Regs.unlisted, hv, hw, if_false] <;> split_ifs <;>
      first | rfl | omega | simp [ih]

/-- A register written with what it holds stays as it is, where that is not 0, on every list (R48). -/
theorem Regs.put_same (r : Regs) {a : Nat} (h : Regs.getAt r a ≠ 0#8) : Regs.put r a (Regs.getAt r a) = r := by
  induction r with
  | nil => exact absurd rfl h
  | cons c cs ih =>
    simp only [Regs.getAt] at h ⊢
    split_ifs at h ⊢ with h1 h2
    · have e : c.2 ≠ Regs.unlisted := h
      subst h1
      simp [Regs.put, e]
    · exact absurd rfl h
    · have e : ¬ a = c.1 := fun x => h1 x.symm
      simp [Regs.put, h2, e, ih h]

end Sys2Proof
end

