-- ==== Sys2Proof/Laws/Units.lean ====
section
/-! SUPPORT. What the scan, the update of one register and the pair `(V, Z_fx)` are, said once. -/

namespace Sys2Proof.Machine

/-- The scan answers the first set bit at or above its start, or the sentinel. -/
theorem scanFrom_spec (t : Word) (fuel p : Nat) :
    (∃ q, p ≤ q ∧ q < p + fuel ∧ t.getLsbD q = true ∧ (∀ j, p ≤ j → j < q → t.getLsbD j = false) ∧
        scanFrom t fuel p = q + 1) ∨
      ((∀ j, p ≤ j → j < p + fuel → t.getLsbD j = false) ∧ scanFrom t fuel p = Config.sentinel) := by
  induction fuel generalizing p with
  | zero => exact .inr ⟨fun j h1 h2 => absurd h2 (by omega), rfl⟩
  | succ n ih =>
    by_cases hp : t.getLsbD p = true
    · refine .inl ⟨p, le_refl p, by omega, hp, fun j h1 h2 => absurd h2 (by omega), ?_⟩
      simp [scanFrom, hp]
    · have hp' : t.getLsbD p = false := by simpa using hp
      have hs : scanFrom t (n + 1) p = scanFrom t n (p + 1) := by simp [scanFrom, hp']
      rw [hs]
      rcases ih (p + 1) with ⟨q, h1, h2, h3, h4, h5⟩ | ⟨h1, h2⟩
      · refine .inl ⟨q, by omega, by omega, h3, fun j hj hq => ?_, h5⟩
        rcases Nat.eq_or_lt_of_le hj with e | e
        · exact e ▸ hp'
        · exact h4 j e hq
      · refine .inr ⟨fun j hj hq => ?_, h2⟩
        rcases Nat.eq_or_lt_of_le hj with e | e
        · exact e ▸ hp'
        · exact h1 j e (by omega)

/-- `RANK` answers the position of the lowest set bit plus 1, or 32 where no bit is set (R111). -/
theorem rank_spec (t : Word) :
    (∃ q, q < 32 ∧ t.getLsbD q = true ∧ (∀ j, j < q → t.getLsbD j = false) ∧ rank t = q + 1) ∨
      (t = 0#32 ∧ rank t = 32) := by
  rcases scanFrom_spec t 32 0 with ⟨q, _, h2, h3, h4, h5⟩ | ⟨h1, h2⟩
  · exact .inl ⟨q, by omega, h3, fun j hj => h4 j (Nat.zero_le j) hj, h5⟩
  · refine .inr ⟨BitVec.eq_of_getLsbD_eq fun i hi => ?_, h2⟩
    simpa using h1 i (Nat.zero_le i) (by omega)

/-- The guard bit of the tail value is always set (R96, R97). -/
theorem tail_guard (h : Word) : (tail h).getLsbD 17 = true := by
  simp [tail]

/-- The bits of the tail value below the guard bit are bits 31:15 of the hash (R96). -/
theorem tail_bit (h : Word) {j : Nat} (hj : j < 17) : (tail h).getLsbD j = h.getLsbD (15 + j) := by
  have h18 : j < 18 := by omega
  have guardBit : ∀ k : Fin 17, (0x20000#18).getLsbD k.val = false := by decide
  have g : (0x20000#18)[j] = false := by simpa [BitVec.getLsbD_eq_getElem h18] using guardBit ⟨j, hj⟩
  simp [tail, h18, g]

/-- The rank of a hash is that of the lowest set bit of its tail value (R113). -/
theorem rankOfHash_spec (h : Word) :
    ∃ q, q < 18 ∧ (tail h).getLsbD q = true ∧ (∀ j, j < q → (tail h).getLsbD j = false) ∧ rankOfHash h = q + 1 := by
  have bit : ∀ j, j < 18 → ((tail h).setWidth 32).getLsbD j = (tail h).getLsbD j := by
    intro j hj
    simp [show j < 32 by omega]
  have guard : ((tail h).setWidth 32).getLsbD 17 = true := by rw [bit 17 (by omega), tail_guard]
  rcases rank_spec ((tail h).setWidth 32) with ⟨q, h1, h2, h3, h4⟩ | ⟨h1, _⟩
  · have hq : q < 18 := by
      by_contra hc
      rw [h3 17 (by omega)] at guard
      cases guard
    exact ⟨q, hq, bit q hq ▸ h2, fun j hj => bit j (by omega) ▸ h3 j hj, h4⟩
  · rw [h1] at guard
    simp at guard

/-- The byte a rank is stored as keeps it (R124). -/
theorem toNat_rankByte (h : Word) : (BitVec.ofNat 8 (rankOfHash h)).toNat = rankOfHash h := by
  obtain ⟨q, hq, -, -, e⟩ := rankOfHash_spec h
  rw [BitVec.toNat_ofNat, e]
  exact Nat.mod_eq_of_lt (by omega)

@[simp] theorem toNat_maxByte (a b : Byte) : (maxByte a b).toNat = max a.toNat b.toNat := by
  unfold maxByte
  split <;> omega

/-- The byte `ADD` writes is never 0. -/
theorem maxByte_rank_ne_zero (a : Byte) (h : Word) : maxByte a (BitVec.ofNat 8 (rankOfHash h)) ≠ 0#8 := by
  intro e
  have e' := congrArg BitVec.toNat e
  obtain ⟨q, -, -, -, hr⟩ := rankOfHash_spec h
  rw [toNat_maxByte, toNat_rankByte, hr] at e'
  simp at e'

/-- The update raises the bucket of the hash to the maximum of what it held and the rank (R121). -/
theorem recordHash_read_self (r : Regs) (h : Word) :
    ((recordHash r h).read (index h)).toNat = max (r.read (index h)).toNat (rankOfHash h) := by
  rw [recordHash, raiseRegister, Regs.read_write_self_pos r _ (maxByte_rank_ne_zero _ h), toNat_maxByte, toNat_rankByte]

/-- The update changes no other register (R121). -/
theorem recordHash_read_other (r : Regs) (h : Word) {j : Bucket} (hj : j ≠ index h) :
    (recordHash r h).read j = r.read j :=
  Regs.read_write_other_pos r (maxByte_rank_ne_zero _ h) hj

/-- The update keeps the canonical form. -/
theorem recordHash_wf {r : Regs} (hr : r.wf = true) (h : Word) : (recordHash r h).wf = true :=
  Regs.wf_write hr _ _

/-- `V` as a number: the count of registers that read 0 (R141). -/
theorem toNat_zeroCount (r : Regs) :
    r.zeroCount.toNat = ((Finset.range 32768).filter fun k => r.read (BitVec.ofNat 15 k) = 0#8).card := by
  have hs : Regs.sumAll zeroTerm r = ((Finset.range 32768).filter fun k => r.read (BitVec.ofNat 15 k) = 0#8).card := by
    rw [Regs.sumAll_eq, Finset.card_filter]
    rfl
  have hb : ((Finset.range 32768).filter fun k => r.read (BitVec.ofNat 15 k) = 0#8).card ≤ 32768 := by
    simpa using Finset.card_filter_le (Finset.range 32768) fun k => r.read (BitVec.ofNat 15 k) = 0#8
  rw [Regs.zeroCount, hs, BitVec.toNat_ofNat]
  exact Nat.mod_eq_of_lt (by omega)

/-- `Z_fx` as a number, where no register is above 32: the sum fits 48 bits (R141, R142). -/
theorem toNat_harmonicSum {r : Regs} (h : ∀ i : Bucket, (r.read i).toNat ≤ 32) :
    r.harmonicSum.toNat = ∑ k ∈ Finset.range 32768, 2 ^ (32 - (r.read (BitVec.ofNat 15 k)).toNat) := by
  have hb : ∑ k ∈ Finset.range 32768, 2 ^ (32 - (r.read (BitVec.ofNat 15 k)).toNat) ≤ 32768 * 2 ^ 32 := by
    refine (Finset.sum_le_card_nsmul _ _ (2 ^ 32) fun k _ => ?_).trans (by simp)
    exact Nat.pow_le_pow_right (by norm_num) (Nat.sub_le _ _)
  rw [Regs.harmonicSum, if_pos ((Regs.allLe_iff 32 r).mpr h), Regs.sumAll_eq, BitVec.toNat_ofNat]
  refine Nat.mod_eq_of_lt (lt_of_le_of_lt hb (by norm_num))

end Sys2Proof.Machine
end

