-- ==== Sys2Proof/Laws/Exec.lean ====
section
/-! SUPPORT. What one command and one step can do, said once. -/

namespace Sys2Proof.Machine

@[simp] theorem exec_clear (s : State) : exec .clear s = .next ((s.setRegs Regs.cleared).respond Response.done) := rfl

@[simp] theorem exec_add (x : Word) (s : State) :
    exec (.add x) s = .next ((s.setRegs (recordHash s.regs (mix x))).respond Response.done) := rfl

@[simp] theorem exec_est (s : State) :
    exec .est s = .next (s.respond ⟨errNone, s.regs.zeroCount, s.regs.harmonicSum⟩) := rfl

@[simp] theorem exec_rsvd (s : State) : exec .rsvd s = .next s.raiseIllegalCommand := rfl

/-- If a command answers `t`: the command port and `rst` are as before, one response is added, and the array is cleared,
updated at one bucket, or as before. -/
theorem exec_next_cases {i : Instr} {s t : State} (h : exec i s = .next t) :
    t.cmds = s.cmds ∧ t.rst = s.rst ∧ (∃ r, t.rsps = s.rsps ++ [r]) ∧
      ((i = .clear ∧ t.regs = Regs.cleared) ∨ (∃ x, i = .add x ∧ t.regs = recordHash s.regs (mix x)) ∨
        ((i = .est ∨ i = .rsvd) ∧ t.regs = s.regs)) := by
  cases i with
  | clear => cases h; exact ⟨rfl, rfl, ⟨_, rfl⟩, .inl ⟨rfl, rfl⟩⟩
  | add x => cases h; exact ⟨rfl, rfl, ⟨_, rfl⟩, .inr (.inl ⟨x, rfl, rfl⟩)⟩
  | est => cases h; exact ⟨rfl, rfl, ⟨_, rfl⟩, .inr (.inr ⟨.inl rfl, rfl⟩)⟩
  | rsvd => cases h; exact ⟨rfl, rfl, ⟨_, rfl⟩, .inr (.inr ⟨.inr rfl, rfl⟩)⟩

/-- If a step answers `t`: `rst` was asserted and won, or the next offered word was accepted and run, or the block
waited. -/
theorem step_next_cases {s t : State} (h : step s = .next t) :
    (s.rst = true ∧ t = s.enterReset) ∨
      (s.rst = false ∧ ∃ w ws, s.cmds = w :: ws ∧ exec (decode w) { s with cmds := ws } = .next t) ∨
      (s.rst = false ∧ s.cmds = [] ∧ t = s) := by
  unfold step at h
  cases hr : s.rst with
  | true =>
    rw [hr] at h
    cases h
    exact .inl ⟨rfl, rfl⟩
  | false =>
    rw [hr] at h
    cases hc : s.cmds with
    | nil =>
      simp only [State.accept, hc] at h
      cases h
      exact .inr (.inr ⟨rfl, rfl, rfl⟩)
    | cons w ws =>
      simp only [State.accept, hc] at h
      refine .inr (.inl ⟨rfl, w, ws, rfl, ?_⟩)
      simpa [hr] using h

end Sys2Proof.Machine
end

