-- ==== Sys2Proof/Laws/PerInstr.lean ====
section
/-! SUPPORT. Statements about every command as syntax, one lemma per constructor. -/

namespace Sys2Proof

/-- The command is well formed, and its word carries its opcode in bits 33:32 and its operand in bits 31:0 (R61, R62). -/
def Laws.WordFields.Statement (i : Instr) : Prop :=
  i.wf = true ∧ opField (encode i) = i.op ∧ operandField (encode i) = i.operand

theorem Laws.WordFields.fields (i : Instr) : opField (encode i) = i.op ∧ operandField (encode i) = i.operand := by
  constructor
  · refine BitVec.eq_of_getLsbD_eq fun j hj => ?_
    simp [opField, encode, hj, show 32 + j < 34 by omega]
  · refine BitVec.eq_of_getLsbD_eq fun j hj => ?_
    simp [operandField, encode, hj, show j < 34 by omega]

theorem Laws.WordFields.clear : Laws.WordFields.Statement .clear := ⟨rfl, Laws.WordFields.fields .clear⟩

theorem Laws.WordFields.add (x : Word) : Laws.WordFields.Statement (.add x) := ⟨rfl, Laws.WordFields.fields (.add x)⟩

theorem Laws.WordFields.est : Laws.WordFields.Statement .est := ⟨rfl, Laws.WordFields.fields .est⟩

theorem Laws.WordFields.rsvd : Laws.WordFields.Statement .rsvd := ⟨rfl, Laws.WordFields.fields .rsvd⟩

end Sys2Proof
end

