-- ==== Sys2Proof/Tests/Slice0.lean ====
section
/-! SUPPORT. Tests of the model against spec/ (most from 95_test_vectors.md, whose ids stand at each), and one state for
the hypotheses of each statement of Certificates/Slice0/Obligations.lean. -/

namespace Sys2Proof.Tests

open Sys2Proof Sys2Proof.Machine

/-- Reset, with an array and words on the command port. -/
def st (r : Regs) (ws : List CmdWord) : State := { State.reset with regs := r, cmds := ws }

/-! ### Well-formedness: each check refuses an ill-formed term (R76, R77) -/

theorem test_wf_refuses_value_above : (AsmLine.add 4294967296).wf = false := by decide
theorem test_wf_refuses_value_below : (AsmLine.add (-2147483649)).wf = false := by decide
theorem test_wf_refuses_word_of_35_bits : (AsmLine.word 0x400000000).wf = false := by decide
theorem test_wf_takes_the_bounds :
    (AsmLine.add 4294967295).wf ∧ (AsmLine.add (-2147483648)).wf ∧ (AsmLine.word 0x3FFFFFFFF).wf := by decide

/-! ### Decoding: words bit by bit from R61, R62, and R70 to R73 -/

theorem test_decode_clear : decode 0b0000000000000000000000000000000000#34 = .clear := by decide
theorem test_decode_add : decode 0b0100000000000000001010110000000101#34 = .add 0b00000000000000001010110000000101#32 := by
  decide
theorem test_decode_est : decode 0b1011111111111111111111111111111111#34 = .est := by decide
theorem test_decode_rsvd : decode 0b1111011110101011011011111011101111#34 = .rsvd := by decide

/-- R44: the byte holding bits 7 to 0 goes first. -/
theorem test_decode_bytes : decodeBytes [0x05, 0xAC, 0x00, 0x00, 0x01, 0x77] = .ok (.add 44037, [0x77]) := by decide
theorem test_decode_bytes_short : decodeBytes [0x05, 0xAC, 0x00, 0x00] = .error .tooShort := by decide
theorem test_decode_bytes_above : decodeBytes [0x05, 0xAC, 0x00, 0x00, 0x05] = .error .bitsAboveWord := by decide

/-- The opcode table's match words (R70 to R73). -/
theorem test_decode_table : decodeTableWord 40 0x000000000 = some .clear ∧ decodeTableWord 40 0x100000000 = some (.add 0) ∧
    decodeTableWord 40 0x200000000 = some .est ∧ decodeTableWord 40 0x300000000 = some .rsvd := by decide

/-! ### MIX, INDEX, TAIL, RANK: tables A2, B, C -/

/-- A2, default mix: the row of `-1` shows the logical shift and the wrap of the product. -/
theorem test_mix_default : mixWith MixParams.published 0x00000001 = 0x31251BA7 ∧
    mixWith MixParams.published 0xFFFFFFFF = 0x2028884F ∧ mixWith MixParams.published 0x80000000 = 0x3D5A6175 ∧
    mixWith MixParams.published 0xDEADBEEF = 0x5353E2E9 := by decide

/-- B: index bits do not reach the tail; bit 15 is bit 0 of the tail; bit 31 is bit 16 of it. -/
theorem test_split : index 0x31251BA7 = 7079 ∧ tail 0x31251BA7 = 0x2624A ∧ tail 0x00007FFF = 0x20000 ∧
    tail 0x00008000 = 0x20001 ∧ tail 0x80000000 = 0x30000 ∧ tail 0xFFFFFFFF = 0x3FFFF ∧ index 0xFFFFFFFF = 0x7FFF := by decide

/-- B: ranks of tails. -/
theorem test_rank_of_hash : rankOfHash 0x00007FFF = 18 ∧ rankOfHash 0x12340000 = 4 ∧ rankOfHash 0x80000000 = 17 ∧
    rankOfHash 0x5C721BA7 = 3 := by decide

/-- C: the scan goes from bit 0; the sentinel and position 31 give 32. -/
theorem test_rank : rank 0x00000000 = 32 ∧ rank 0x80000000 = 32 ∧ rank 0x40000000 = 31 ∧ rank 0x0002624A = 2 ∧
    rank 0x00030000 = 17 ∧ rank 0xFFFFFFFF = 1 := by decide

/-! ### ADD and CLEAR: table D -/

/-- D, default mix: from all zero `ADD 1` leaves `reg[7079] = 2`. -/
theorem test_add_first : recordHash [] (mixWith MixParams.published 1) = [(7079, 2)] := by decide

/-- D, default mix: rank 1 does not lower a register at 2; rank 3 raises it. -/
theorem test_add_maximum : recordHash [(7079, 2)] (mixWith MixParams.published 44037) = [(7079, 2)] ∧
    recordHash [(7079, 2)] (mixWith MixParams.published 58134) = [(7079, 3)] := by decide

/-- P5, default mix: a second bucket goes to its place in the order. -/
theorem test_add_order : recordHash [(7079, 2)] (mixWith MixParams.published 2) = [(4760, 1), (7079, 2)] := by decide

/-- `ADD` and `CLEAR` answer (0, 0, 0) (R64). -/
theorem test_add_answers : exec (.add 7) State.reset
    = .next { State.reset with regs := recordHash [] (mix 7), rsps := [⟨0, 0, 0⟩] } := rfl

/-- D: `CLEAR` of `reg[0] = 18`, `reg[7079] = 3`. -/
theorem test_clear : exec .clear (st [(0, 18), (7079, 3)] []) = .next { State.reset with rsps := [⟨0, 0, 0⟩] } := rfl

/-- R42: writing 0 takes the entry out; the other register stays. -/
theorem test_write_zero : Regs.write [(3, 5), (9, 1)] 3 0 = [(9, 1)] ∧ Regs.read [(9, 1)] 3 = 0 := by decide

/-! ### EST: table E1 -/

theorem test_est_reset : step (st [] [0x2FFFFFFFF]) = .next { State.reset with rsps := [⟨0, 0x8000, 0x800000000000⟩] } := by
  rfl
theorem test_est_one_register : (Regs.zeroCount [(0, 18)], Regs.harmonicSum [(0, 18)]) = (0x7FFF, 0x7FFF00004000) := by
  decide +kernel

/-- P5: five registers. -/
theorem test_est_five_registers :
    (Regs.zeroCount [(2127, 1), (4760, 1), (7079, 2), (13988, 3), (21061, 1)],
      Regs.harmonicSum [(2127, 1), (4760, 1), (7079, 2), (13988, 3), (21061, 1)]) = (0x7FFB, 0x7FFCE0000000) := by
  decide +kernel

/-- The response word of `reg[0] = 18` (R65). -/
theorem test_response_word : (Response.mk 0 0x7FFF 0x7FFF00004000).word = 0x07FFF7FFF00004000 ∧
    (Response.mk 1 0 0).word = 0x10000000000000000 := by decide

/-- R44, R65: the response `0 / 7FFF / 7FFF00004000` as bytes, low byte first; a bit above bit 64 is rejected. -/
theorem test_response_bytes : (Response.mk 0 0x7FFF 0x7FFF00004000).bytes = [0x00, 0x40, 0x00, 0x00, 0xFF, 0x7F, 0xFF, 0x7F, 0x00] ∧
    Response.ofBytes [0, 0, 0, 0, 0, 0, 0, 0, 1, 9] = .ok (⟨1, 0, 0⟩, [9]) ∧
    Response.ofBytes [0, 0, 0, 0, 0, 0, 0, 0, 2] = .error .bitsAboveWord ∧
    Response.ofBytes [0, 0, 0, 0, 0, 0, 0, 0] = .error .tooShort := by decide

/-! ### The reserved opcode, reset, the ports -/

/-- D, P6: `.word 0x3DEADBEEF` leaves the state and answers (1, 0, 0). -/
theorem test_rsvd : step (st [(0, 18)] [0x3DEADBEEF])
    = .next { State.reset with regs := [(0, 18)], rsps := [⟨1, 0, 0⟩] } := rfl

/-- R186, R201: reset wins over an offered word, which is not accepted; the waiting response is dropped. -/
theorem test_reset_wins : step { st [(0, 18)] [0x100000001] with rst := true, rsps := [⟨1, 0, 0⟩] }
    = .next { st [] [0x100000001] with rst := true } := rfl

/-- R200, R201, R212: an assertion with no block step before its release resets, and the response that had not left is not
handed out. -/
theorem test_reset_pulse :
    session [.setRst true, .take, .setRst false, .take] { st [(0, 18)] [0x200000000] with rsps := [⟨1, 0, 0⟩] }
      = (st [] [0x200000000], []) := rfl

/-- R50, R66: responses are taken in the order of their commands. -/
theorem test_session_order : session [.offer 0x300000000, .blockStep, .offer 0x000000000, .blockStep, .take, .take] State.reset
    = (State.reset, [⟨1, 0, 0⟩, ⟨0, 0, 0⟩]) := by rfl

/-- The word the host places is the one the next step runs. -/
theorem test_fetch_word : step (State.reset.withFetchWord 40 0x300000000) = .next { State.reset with rsps := [⟨1, 0, 0⟩] } := rfl

/-! ### FINAL: tables F1, F2, and R167 -/

/-- R167: the literals are the binary64 numbers nearest to 0.7213 and 1.079. -/
theorem test_alpha_literals :
    Binary64.pack false (Binary64.roundUnits (7213 * Binary64.oneUnits) 10000) = Config.alphaNum ∧
      Binary64.pack false (Binary64.roundUnits (1079 * Binary64.oneUnits) 1000) = Config.alphaK := by decide +kernel

/-- F2: the raw branch. -/
theorem test_final_raw : Binary64.trunc (rawEstimate 0x400000000000) = 47269 ∧
    Binary64.trunc (rawEstimate 0x3FFF80004000) = 47271 ∧ Binary64.trunc (rawEstimate 0x040000000000) = 756312 ∧
    Binary64.trunc (rawEstimate 0x02FD5DEE0000) = 1011886 ∧ Binary64.trunc (rawEstimate 0x000020000000) = 6195715805 := by
  decide +kernel

/-- F1, `V = 16384`, with the binary64 nearest to ln 2 for the logarithm of 2.0. -/
theorem test_final_linear : finalWith (fun _ => 0x3FE62E42FEFA39EF) 16384 0 = 22713 := by decide +kernel

/-- R15: round to nearest, ties to even: 1 + 2^(-53) is 1, 1 + 3 * 2^(-53) is 1 + 2^(-51). -/
theorem test_ties_to_even : Binary64.fadd Binary64.one 0x3CA0000000000000 = Binary64.one ∧
    Binary64.fadd Binary64.one 0x3CB8000000000000 = 0x3FF0000000000002 := by decide +kernel

/-! ### Text: R76 to R78 -/

/-- P5, line 5, with a comment: `ADD -1` is the word 0x1FFFFFFFF. -/
theorem test_asm_negative : assembleText ['A', 'D', 'D', ' ', ' ', '-', '1', ' ', '#', 'x', '\n', '#', 'y']
    = .ok [⟨0x1FFFFFFFF, false⟩] := by decide +kernel

/-- P6, line 2, and the pseudo `ESTIMATE`. -/
theorem test_asm_word : assembleText ['.', 'w', 'o', 'r', 'd', ' ', '0', 'x', '3', 'D', 'E', 'A', 'D', 'B', 'E', 'E', 'F',
    '\n', 'E', 'S', 'T', 'I', 'M', 'A', 'T', 'E'] = .ok [⟨0x3DEADBEEF, false⟩, ⟨0x200000000, true⟩] := by decide +kernel

/-- A value outside the range is an assembly error (R77). -/
theorem test_asm_out_of_range : assembleText ['A', 'D', 'D', ' ', '0', 'x', '1', '0', '0', '0', '0', '0', '0', '0', '0']
    = .error .outOfRange := by decide +kernel

/-! ### States that meet the hypotheses of the statements -/

/-- An array with one register listed reads 0 elsewhere. -/
theorem read_singleton (i j : Bucket) (v : Byte) : Regs.read [(i.toNat, v)] j = if j = i then v else 0#8 := by
  by_cases h : j = i
  · simp [h, Regs.read, Regs.getAt]
  · have e : ¬ i.toNat = j.toNat := fun x => h (BitVec.eq_of_toNat_eq x.symm)
    simp [h, Regs.read, Regs.getAt, e, Regs.unlisted]

/-- The array with `n` registers from `lo` on at `v`. -/
def filled (v : Byte) : Nat → Nat → Regs
  | 0, _ => []
  | n + 1, lo => (lo, v) :: filled v n (lo + 1)

theorem getAt_filled (v : Byte) (n lo a : Nat) (h1 : lo ≤ a) (h2 : a < lo + n) : Regs.getAt (filled v n lo) a = v := by
  induction n generalizing lo with
  | zero => omega
  | succ n ih =>
    by_cases h : lo = a
    · simp [filled, Regs.getAt, h]
    · have e : ¬ a < lo := by omega
      simp [filled, Regs.getAt, h, e, ih (lo + 1) (by omega) (by omega)]

/-- Every register at `v`. -/
theorem read_filled (v : Byte) (i : Bucket) : Regs.read (filled v 32768 0) i = v :=
  getAt_filled v 32768 0 i.toNat (Nat.zero_le _) (by have := i.isLt; omega)

/-- `reg[5] = v` alone, in 0 .. 18. -/
theorem inv_five (v : Byte) (h0 : v ≠ 0#8) (h : v.toNat ≤ 18) (ws : List CmdWord) : (st [(5, v)] ws).Inv := by
  refine ⟨by simp [st, Regs.wf, Regs.wfFrom, Config.m, Regs.unlisted, h0], fun i => ?_⟩
  have := read_singleton 5#15 i v
  simp only [BitVec.toNat_ofNat] at this
  rw [st, this]
  split <;> simp [h]

theorem witness_reset_asserted : ({ State.reset with rst := true } : State).rst = true := rfl

theorem witness_step_from_invariant : (st [(5, 18)] [0x200000000]).Inv ∧ ∃ t, step (st [(5, 18)] [0x200000000]) = .next t :=
  ⟨inv_five 18 (by decide) (by decide) _, _, rfl⟩

theorem witness_run_without_clear : (st [(5, 18)] [0x100000001, 0x200000000]).rst = false ∧
    ∀ w ∈ (st [(5, 18)] [0x100000001, 0x200000000]).cmds, opField w ≠ 0b00#2 := by
  refine ⟨rfl, fun w hw => ?_⟩
  simp only [st, List.mem_cons, List.not_mem_nil, or_false] at hw
  rcases hw with rfl | rfl <;> decide

theorem witness_register_lowered : step (st [(5, 18)] [0x000000000]) = .next { State.reset with rsps := [⟨0, 0, 0⟩] } ∧
    (Regs.read [] 5).toNat < (Regs.read [(5, 18)] 5).toNat := ⟨rfl, by decide⟩

theorem witness_other_command : (Instr.est ≠ .clear) ∧ ∃ t, exec .est State.reset = .next t := ⟨by decide, _, rfl⟩

theorem witness_registers_at_most_32 (i : Bucket) : ((st [(5, 32)] [0x200000000]).regs.read i).toNat ≤ 32 := by
  have := read_singleton 5#15 i 32
  simp only [BitVec.toNat_ofNat] at this
  rw [st, this]
  split <;> decide

theorem witness_word_offered : (st [] [0x100000001]).rst = false ∧ (st [] [0x100000001]).cmds = 0x100000001 :: [] := ⟨rfl, rfl⟩

theorem witness_no_word_offered : State.reset.rst = false ∧ State.reset.cmds = [] := ⟨rfl, rfl⟩

theorem witness_host_action : HostAction.take ≠ .blockStep ∧ HostAction.setRst true ≠ .blockStep := by decide

theorem witness_reset_held : (({ State.reset with rst := true } : State).rst = true →
      ({ State.reset with rst := true } : State).regs = State.reset.regs ∧ ({ State.reset with rst := true } : State).rsps = []) ∧
    (session [.offer 0x200000000, .blockStep, .take] { State.reset with rst := true }).1.rst = true :=
  ⟨fun _ => ⟨rfl, rfl⟩, rfl⟩

theorem witness_each_opcode : (0x0FFFFFFFF#34).extractLsb' 32 2 = 0b00#2 ∧ (0x1FFFFFFFF#34).extractLsb' 32 2 = 0b01#2 ∧
    (0x2FFFFFFFF#34).extractLsb' 32 2 = 0b10#2 ∧ (0x3FFFFFFFF#34).extractLsb' 32 2 = 0b11#2 := by decide

theorem witness_ignored_operands : opField 0x200000000#34 = opField 0x2FFFFFFFF#34 ∧ opField 0x200000000#34 ≠ 0b01#2 ∧
    State.reset.rst = false := by decide

theorem witness_value_ranges : ((-2147483648 : Int) ≤ -2147483648 ∧ (-2147483648 : Int) ≤ 4294967295) ∧
    ((-2147483648 : Int) ≤ 4294967295 ∧ (4294967295 : Int) ≤ 4294967295) ∧
    ((-2147483649 : Int) < -2147483648) ∧ (4294967295 : Int) < 4294967296 := by decide

theorem witness_scan_operand : (0x80000000#32) ≠ 0#32 := by decide

theorem witness_rank_positions : ((0x00008000#32).getLsbD (15 + 1 - 1) = true) ∧ ((0x80000000#32).getLsbD (15 + 17 - 1) = true) ∧
    ∀ j : Fin 31, (0x80000000#32).getLsbD j.val = false := by decide

theorem witness_register_at_rank : rankOfHash (mix 1) ≤ ((st (recordHash [] (mix 1)) []).regs.read (bucketOf 1)).toNat := by
  have := recordHash_read_self [] (mix 1)
  rw [st, bucketOf, this]
  exact le_max_right _ _

theorem witness_same_set : State.reset.rst = false ∧ ∀ x : Word, x ∈ [1, 2, 1] ↔ x ∈ [2, 1] := by
  refine ⟨rfl, fun x => ?_⟩
  simp only [List.mem_cons, List.not_mem_nil, or_false]
  tauto

theorem witness_est_between : State.reset.rst = false ∧
    ∀ w ∈ [0x2FFFFFFFF#34, 0x300000000#34], opField w = 0b10#2 ∨ opField w = 0b11#2 := by
  refine ⟨rfl, fun w hw => ?_⟩
  simp only [List.mem_cons, List.not_mem_nil, or_false] at hw
  rcases hw with rfl | rfl <;> decide

theorem witness_illegal_word : State.reset.rst = false ∧ opField 0x3DEADBEEF#34 = 0b11#2 := by decide

theorem witness_host_pace : (st [(5, 32)] [0x200000000]).rst = false ∧
    (∀ i : Bucket, ((st [(5, 32)] [0x200000000]).regs.read i).toNat ≤ 32) ∧
    ∀ a ∈ [HostAction.offer 0x100000001, .blockStep, .setRst false, .take], a ≠ .setRst true :=
  ⟨rfl, witness_registers_at_most_32, by decide⟩

theorem witness_interleavings : Interleaves [[0x100000001], [0x100000002]] [0x100000001, 0x100000002] ∧
    Interleaves [[0x100000001], [0x100000002]] [0x100000002, 0x100000001] ∧
    ∀ l ∈ [[0x100000001#34], [0x100000002#34]], ∀ w ∈ l, opField w = 0b01#2 :=
  ⟨.pick [] [[0x100000002]] _ [] _ (.pick [[]] [] _ [] _ (.done _ (by simp))),
    .pick [[0x100000001]] [] _ [] _ (.pick [] [[]] _ [] _ (.done _ (by simp))), by simp [opField]⟩

theorem witness_all_at_18 (i : Bucket) : (filled 18 32768 0).read i = 18#8 ∧ ((filled 18 32768 0).read i).toNat ≤ 18 := by
  rw [read_filled]
  decide

theorem witness_all_at_32 (i : Bucket) : ((filled 32 32768 0).read i).toNat ≤ 32 := by
  rw [read_filled]
  decide

theorem witness_all_at_0 (i : Bucket) : Regs.read [] i = 0#8 := rfl

theorem witness_one_register : (∀ j : Bucket, j ≠ 5#15 → Regs.read [((5#15).toNat, 32)] j = 0#8) ∧
    1 ≤ (Regs.read [((5#15).toNat, 32)] 5).toNat ∧ (Regs.read [((5#15).toNat, 32)] 5).toNat ≤ 32 :=
  ⟨fun j hj => by rw [read_singleton, if_neg hj], by decide, by decide⟩

theorem witness_sum_order : (∀ i : Bucket, ((filled 32 32768 0).read i).toNat ≤ 32) ∧
    ((List.range 32768).map fun k => (filled 32 32768 0).read (BitVec.ofNat 15 k)).Perm
      ((List.range 32768).map fun k => (filled 32 32768 0).read (BitVec.ofNat 15 k)) :=
  ⟨witness_all_at_32, List.Perm.refl _⟩

/-- A logarithm with (P1), (P2), (P3) and a small value at 32768.0: the constant `+0.0`. -/
theorem witness_logarithm : LnP1 (fun _ => Binary64.zero) ∧ LnP2 (fun _ => Binary64.zero) ∧ LnP3 (fun _ => Binary64.zero) ∧
    Binary64.toRat ((fun _ => Binary64.zero) (Binary64.f64 32768)) ≤ 1039721 / 100000 := by
  have z : Binary64.toRat Binary64.zero = 0 := by
    have u : Binary64.signedUnits Binary64.zero = 0 := by decide
    simp [Binary64.toRat, u]
  refine ⟨rfl, fun _ _ _ => ⟨(by decide : Binary64.isFinite Binary64.zero = true), z.ge⟩, fun q q' _ _ _ _ _ _ _ => le_refl _, ?_⟩
  show Binary64.toRat Binary64.zero ≤ _
  rw [z]
  norm_num

theorem witness_zero_counts : (1#16 ≠ 0) ∧ 1 ≤ (1#16).toNat ∧ (1#16).toNat ≤ 32768 ∧ 1 ≤ (32768#16).toNat ∧
    (32768#16).toNat ≤ 32768 := by decide

theorem witness_sums : (1#48 ≠ 0) ∧ 2 ^ 29 ≤ (0x20000000#48).toNat ∧ (0x20000000#48).toNat ≤ 2 ^ 46 ∧
    (0x400000000000#48).toNat ≤ 2 ^ 46 ∧ 0 < (0x20000000#48).toNat ∧
    (0x20000000#48).toNat ≤ (0x400000000000#48).toNat := by decide

end Sys2Proof.Tests
end

