-- ==== Sys2Proof/Proofs/Fold.lean ====
section
/-! The machine simulates the spec's command function: the registers of the list, read bucket by bucket, are the spec's
array, and each command and each accepted word does to them what `RegArray.command` says (R16). -/

namespace Sys2Proof.Machine

/-- R12, R121: the update for the input `x`, read bucket by bucket, is the spec's write of the maximum. -/
theorem read_recordHash_mix (r : Regs) (x : Word) :
    (recordHash r (mix x)).read =
      RegArray.set r.read (bucketOf x) (BitVec.ofNat 8 (max (r.read (bucketOf x)).toNat (rankOfHash (mix x)))) := by
  funext j
  by_cases hj : j = bucketOf x
  · subst hj
    have hself : ((recordHash r (mix x)).read (bucketOf x)).toNat =
        max (r.read (bucketOf x)).toNat (rankOfHash (mix x)) := recordHash_read_self r (mix x)
    rw [RegArray.set, if_pos rfl, ← hself, BitVec.ofNat_toNat, BitVec.setWidth_eq]
  · rw [RegArray.set, if_neg hj]
    exact recordHash_read_other r (mix x) hj

/-- R141, step 1: the `V` of the register pass is the spec's count over the array. -/
theorem zeroCount_eq_v (r : Regs) : r.zeroCount = BitVec.ofNat 16 (RegArray.v r.read) := by
  rw [RegArray.v, ← toNat_zeroCount, BitVec.ofNat_toNat, BitVec.setWidth_eq]

/-- R141, step 2: the `Z_fx` of the register pass is the spec's sum over the array, where R145 gives it a meaning. -/
theorem harmonicSum_eq_z {r : Regs} (hr : ∀ i : Bucket, (r.read i).toNat ≤ 32) :
    r.harmonicSum = BitVec.ofNat 48 (RegArray.z r.read) := by
  rw [RegArray.z, ← toNat_harmonicSum hr, BitVec.ofNat_toNat, BitVec.setWidth_eq]

theorem rankOfHash_le (h : Word) : rankOfHash h ≤ 18 := by
  obtain ⟨q, hq, -, -, hrank⟩ := rankOfHash_spec h
  omega

/-- R24: no command of the spec takes a register above a bound that admits every rank. -/
theorem RegArray.command_le {n : Nat} (hn : 18 ≤ n) {a : RegArray} (ha : ∀ i : Bucket, (a i).toNat ≤ n) (c : Instr)
    (i : Bucket) : ((a.command c).1 i).toNat ≤ n := by
  cases c with
  | clear => exact Nat.zero_le n
  | add x =>
    simp only [RegArray.command, RegArray.set]
    split
    · have hrank := rankOfHash_le (mix x)
      calc (BitVec.ofNat 8 (max (a (bucketOf x)).toNat (rankOfHash (mix x)))).toNat
          ≤ max (a (bucketOf x)).toNat (rankOfHash (mix x)) := by
            rw [BitVec.toNat_ofNat]
            exact Nat.mod_le _ _
        _ ≤ n := max_le (ha _) (by omega)
    · exact ha i
  | est => exact ha i
  | rsvd => exact ha i

/-- One command of the machine is the spec's command function, on the array and on the response. -/
theorem exec_refines_command (c : Instr) {s : State} (hs : ∀ i : Bucket, (s.regs.read i).toNat ≤ 32) :
    ∃ t, exec c s = .next t ∧ t.cmds = s.cmds ∧ t.rst = s.rst ∧
      t.regs.read = (RegArray.command s.regs.read c).1 ∧
      t.rsps = s.rsps ++ [(RegArray.command s.regs.read c).2] := by
  cases c with
  | clear => exact ⟨_, exec_clear s, rfl, rfl, rfl, rfl⟩
  | add x => exact ⟨_, exec_add x s, rfl, rfl, read_recordHash_mix s.regs x, rfl⟩
  | est =>
    refine ⟨_, exec_est s, rfl, rfl, rfl, ?_⟩
    simp [RegArray.command, zeroCount_eq_v, harmonicSum_eq_z hs, errNone]
  | rsvd => exact ⟨_, exec_rsvd s, rfl, rfl, rfl, rfl⟩

/-- R60, R69: with `rst` released, a step with a word offered runs the command of that word. -/
theorem step_of_cmds_eq_cons {s : State} {w : CmdWord} {ws : List CmdWord} (hrst : s.rst = false)
    (hcmds : s.cmds = w :: ws) : step s = exec (decode w) { s with cmds := ws } := by
  simp [step, State.accept, hrst, hcmds]

/-- R16: one step that accepts a word is one application of the spec's command function. -/
theorem step_refines_command {s : State} {w : CmdWord} {ws : List CmdWord} (hrst : s.rst = false)
    (hcmds : s.cmds = w :: ws) (hs : ∀ i : Bucket, (s.regs.read i).toNat ≤ 32) :
    ∃ t, step s = .next t ∧ t.cmds = ws ∧ t.rst = false ∧
      t.regs.read = (RegArray.command s.regs.read (decode w)).1 ∧
      t.rsps = s.rsps ++ [(RegArray.command s.regs.read (decode w)).2] := by
  obtain ⟨t, hexec, htcmds, htrst, htregs, htrsps⟩ := exec_refines_command (decode w) (s := { s with cmds := ws }) hs
  exact ⟨t, (step_of_cmds_eq_cons hrst hcmds).trans hexec, htcmds, htrst.trans hrst, htregs, htrsps⟩

theorem runSteps_succ_of_step {n : Nat} {s t : State} (h : step s = .next t) : runSteps (n + 1) s = runSteps n t := by
  simp [runSteps, h]

/-- R16, R212: as many steps as there are words in `ws`, the words offered, are the fold of the spec's command function
over `ws`. -/
theorem runSteps_refines_foldCommands (ws : List CmdWord) {s : State} (hrst : s.rst = false) (hcmds : s.cmds = ws)
    (hs : ∀ i : Bucket, (s.regs.read i).toNat ≤ 32) :
    ∃ t, runSteps ws.length s = .next t ∧ t.cmds = [] ∧ t.rst = false ∧
      t.regs.read = (foldCommands ws s.regs.read).1 ∧ t.rsps = s.rsps ++ (foldCommands ws s.regs.read).2 := by
  induction ws generalizing s with
  | nil => exact ⟨s, rfl, hcmds, hrst, rfl, (List.append_nil _).symm⟩
  | cons w ws ih =>
    obtain ⟨m, hstep, hmcmds, hmrst, hmregs, hmrsps⟩ := step_refines_command hrst hcmds hs
    have hm : ∀ i : Bucket, (m.regs.read i).toNat ≤ 32 := by
      rw [hmregs]
      exact RegArray.command_le (by omega) hs (decode w)
    obtain ⟨t, hrun, htcmds, htrst, htregs, htrsps⟩ := ih hmrst hmcmds hm
    refine ⟨t, (runSteps_succ_of_step hstep).trans hrun, htcmds, htrst, ?_, ?_⟩
    · rw [htregs, hmregs, foldCommands]
    · rw [htrsps, hmrsps, hmregs, foldCommands, List.append_assoc, List.singleton_append]

/-- Settles O36, by induction on the words offered: each step is one application of the spec's command function, and
registers at most 32 stay so, which every `EST` on the way needs. -/
theorem runIsTheFoldOfCommands : Obligations.RunIsTheFoldOfCommands := fun _ hrst hs =>
  runSteps_refines_foldCommands _ hrst rfl hs

end Sys2Proof.Machine
end

