-- ==== Sys2Proof/Proofs/ReachableState.lean ====
section
/-! The register array over steps, runs and sessions: it is the reset array after reset, every reachable register is in
`0 .. 18` (R24), and nothing but `CLEAR` and reset lowers a register (R23). -/

namespace Sys2Proof.Machine

/-! ### The update of one register and the decoder -/

/-- R24: the update takes no register above a bound that admits every rank. -/
theorem recordHash_read_le {n : Nat} (hn : 18 ≤ n) {r : Regs} (hr : ∀ i : Bucket, (r.read i).toNat ≤ n) (h : Word)
    (i : Bucket) : ((recordHash r h).read i).toNat ≤ n := by
  by_cases hi : i = index h
  · subst hi
    rw [recordHash_read_self]
    exact max_le (hr _) ((rankOfHash_le h).trans hn)
  · rw [recordHash_read_other r h hi]
    exact hr i

/-- R23: the update lowers no register. -/
theorem read_le_recordHash_read (r : Regs) (h : Word) (i : Bucket) :
    (r.read i).toNat ≤ ((recordHash r h).read i).toNat := by
  by_cases hi : i = index h
  · subst hi
    rw [recordHash_read_self]
    exact le_max_left _ _
  · rw [recordHash_read_other r h hi]

/-- R62, R69: the opcode 00 alone decodes to `CLEAR`. -/
theorem decode_eq_clear_iff (w : CmdWord) : decode w = .clear ↔ opField w = 0b00#2 := by
  by_cases h : opField w = 0b00#2
  · simp [decode, h]
  · refine iff_of_false ?_ h
    rw [decode, if_neg h]
    split_ifs <;> simp

/-! ### Commands and steps -/

/-- R182: every command answers a next state. -/
theorem exec_eq_next (i : Instr) (s : State) : ∃ t, exec i s = .next t := by
  cases i with
  | clear => exact ⟨_, exec_clear s⟩
  | add x => exact ⟨_, exec_add x s⟩
  | est => exact ⟨_, exec_est s⟩
  | rsvd => exact ⟨_, exec_rsvd s⟩

/-- R182, R211: every step answers a next state. -/
theorem step_eq_next (s : State) : ∃ t, step s = .next t := by
  unfold step
  split
  · exact ⟨_, rfl⟩
  · split
    · exact exec_eq_next _ _
    · exact ⟨_, rfl⟩

/-- R126: no command but `CLEAR` lowers a register. -/
theorem exec_read_le {i : Instr} {s t : State} (hi : i ≠ .clear) (h : exec i s = .next t) (j : Bucket) :
    (s.regs.read j).toNat ≤ (t.regs.read j).toNat := by
  obtain ⟨-, -, -, ⟨hclear, -⟩ | ⟨x, -, hregs⟩ | ⟨-, hregs⟩⟩ := exec_next_cases h
  · exact absurd hclear hi
  · rw [hregs]
    exact read_le_recordHash_read s.regs (mix x) j
  · rw [hregs]

/-- R23: a step with `rst` released and no `CLEAR` next on the command port lowers no register. -/
theorem step_read_le {s t : State} (hrst : s.rst = false)
    (hnext : ∀ w ws, s.cmds = w :: ws → opField w ≠ 0b00#2) (h : step s = .next t) (i : Bucket) :
    (s.regs.read i).toNat ≤ (t.regs.read i).toNat := by
  obtain ⟨hasserted, -⟩ | ⟨-, w, ws, hcmds, hexec⟩ | ⟨-, -, rfl⟩ := step_next_cases h
  · simp [hrst] at hasserted
  · exact exec_read_le (fun hw => hnext w ws hcmds ((decode_eq_clear_iff w).mp hw)) hexec i
  · exact le_rfl

/-- R60: a step leaves `rst` as it is, and takes words off the front of the command port only. -/
theorem step_rst_cmds {s t : State} (h : step s = .next t) : t.rst = s.rst ∧ t.cmds <:+ s.cmds := by
  obtain ⟨-, rfl⟩ | ⟨-, w, ws, hcmds, hexec⟩ | ⟨-, -, rfl⟩ := step_next_cases h
  · exact ⟨rfl, List.suffix_rfl⟩
  · obtain ⟨htcmds, htrst, -⟩ := exec_next_cases hexec
    rw [htcmds, hcmds]
    exact ⟨htrst, List.suffix_cons w ws⟩
  · exact ⟨rfl, List.suffix_rfl⟩

/-- R23: a run from a state with `rst` released and no `CLEAR` offered lowers no register. -/
theorem runSteps_read_le (n : Nat) {s : State} (hrst : s.rst = false) (hcmds : ∀ w ∈ s.cmds, opField w ≠ 0b00#2) :
    ∃ t, runSteps n s = .next t ∧ ∀ i : Bucket, (s.regs.read i).toNat ≤ (t.regs.read i).toNat := by
  induction n generalizing s with
  | zero => exact ⟨s, rfl, fun _ => le_rfl⟩
  | succ n ih =>
    obtain ⟨m, hstep⟩ := step_eq_next s
    obtain ⟨hmrst, hmcmds⟩ := step_rst_cmds hstep
    obtain ⟨t, hrun, hmt⟩ := ih (hmrst.trans hrst) fun w hw => hcmds w (hmcmds.subset hw)
    have hnext : ∀ w ws, s.cmds = w :: ws → opField w ≠ 0b00#2 := fun w ws hs =>
      hcmds w (hs ▸ List.mem_cons_self)
    exact ⟨t, (runSteps_succ_of_step hstep).trans hrun, fun i => (step_read_le hrst hnext hstep i).trans (hmt i)⟩

/-! ### The invariant of every reachable state -/

/-- The invariant speaks of the array only. -/
theorem State.Inv.of_regs_eq {s t : State} (hs : s.Inv) (h : t.regs = s.regs) : t.Inv := by
  rw [State.Inv, h]
  exact hs

/-- The cleared array meets the invariant (R32, R126). -/
theorem State.inv_of_regs_eq_cleared {t : State} (h : t.regs = Regs.cleared) : t.Inv := by
  rw [State.Inv, h]
  exact ⟨Regs.wf_cleared, fun _ => Nat.zero_le 18⟩

theorem exec_keeps_inv {i : Instr} {s t : State} (hs : s.Inv) (h : exec i s = .next t) : t.Inv := by
  obtain ⟨-, -, -, ⟨-, hregs⟩ | ⟨x, -, hregs⟩ | ⟨-, hregs⟩⟩ := exec_next_cases h
  · exact State.inv_of_regs_eq_cleared hregs
  · obtain ⟨hwf, hle⟩ := hs
    rw [State.Inv, hregs]
    exact ⟨recordHash_wf hwf (mix x), recordHash_read_le le_rfl hle (mix x)⟩
  · exact hs.of_regs_eq hregs

theorem step_keeps_inv {s t : State} (hs : s.Inv) (h : step s = .next t) : t.Inv := by
  obtain ⟨-, rfl⟩ | ⟨-, w, ws, -, hexec⟩ | ⟨-, -, rfl⟩ := step_next_cases h
  · exact State.inv_of_regs_eq_cleared s.enterReset_regs
  · exact exec_keeps_inv (s := { s with cmds := ws }) (hs.of_regs_eq rfl) hexec
  · exact hs

/-! ### The host's actions -/

/-- A block step as an action of a session, with no response taken. -/
theorem act_blockStep {s t : State} (h : step s = .next t) : act s .blockStep = (t, none) := by
  simp [act, h]

/-- R22, R52, R200: what each action of the host that is not a block step does to the array. -/
theorem act_regs (s : State) {a : HostAction} (ha : a ≠ .blockStep) :
    (act s a).1.regs = if a = .setRst true then Regs.cleared else s.regs := by
  cases a with
  | setRst level => cases level <;> rfl
  | offer w => rfl
  | take =>
    simp only [act]
    split
    · next htake =>
      obtain ⟨-, hregs, -, -⟩ := State.take_eq_some htake
      exact hregs
    · rfl
  | blockStep => exact absurd rfl ha

theorem act_keeps_inv {s : State} (hs : s.Inv) (a : HostAction) : (act s a).1.Inv := by
  by_cases ha : a = .blockStep
  · subst ha
    obtain ⟨t, hstep⟩ := step_eq_next s
    rw [act_blockStep hstep]
    exact step_keeps_inv hs hstep
  · have hregs := act_regs s ha
    split at hregs
    · exact State.inv_of_regs_eq_cleared hregs
    · exact hs.of_regs_eq hregs

/-- What every action keeps, every session keeps. -/
theorem session_keeps {P : State → Prop} (hact : ∀ s a, P s → P (act s a).1) (actions : List HostAction)
    {s : State} (hs : P s) : P (session actions s).1 := by
  induction actions generalizing s with
  | nil => exact hs
  | cons a as ih => exact ih (hact s a hs)

/-! ### The estimate of the reset array -/

/-- R34: all `M = 32768` registers of the cleared array read 0. -/
theorem zeroCount_cleared : Regs.zeroCount Regs.cleared = 32768 := rfl

/-- R34: `Z = M` in the cleared array, each register adding `2^32` to `Z_fx`. -/
theorem harmonicSum_cleared : Regs.harmonicSum Regs.cleared = 0x800000000000 := rfl

/-- R163: the quotient `M / V` at `V = M` is exactly 1.0. -/
theorem fdiv_mF64_self : Binary64.fdiv mF64 (Binary64.f64 32768) = Binary64.one := by decide +kernel

theorem fmul_mF64_zero : Binary64.fmul mF64 Binary64.zero = Binary64.zero := by decide +kernel

theorem trunc_zero : Binary64.trunc Binary64.zero = 0 := by decide +kernel

/-- R163: `V = M` gives 0 for every logarithm with (P1), whatever `Z_fx` is. -/
theorem finalWith_of_zeroCount_eq_m {ln : F64 → F64} (hln : LnP1 ln) (z : BitVec 48) : finalWith ln 32768 z = 0 := by
  have hcount : linearCount ln 32768 = Binary64.zero :=
    calc linearCount ln 32768
        = Binary64.fmul mF64 (ln (Binary64.fdiv mF64 (Binary64.f64 32768))) := rfl
      _ = Binary64.fmul mF64 (ln Binary64.one) := by rw [fdiv_mF64_self]
      _ = Binary64.fmul mF64 Binary64.zero := by rw [hln]
      _ = Binary64.zero := fmul_mF64_zero
  have hbranch : (32768 : BitVec 16) ≠ 0 := by decide
  rw [finalWith, if_neg hbranch, hcount, trunc_zero]

/-! ### The statements -/

/-- Settles O5: the array after a step is cleared, updated at one bucket, or as before, and each meets the invariant. -/
theorem stepKeepsReachableInvariant : Obligations.StepKeepsReachableInvariant := fun _ _ => step_keeps_inv

/-- Settles O6, by induction on the actions. -/
theorem sessionsKeepReachableInvariant : Obligations.SessionsKeepReachableInvariant := fun actions _ =>
  session_keeps (P := State.Inv) (fun _ a hs => act_keeps_inv hs a) actions

/-- Settles O7: the run by induction on its steps, the step by what it runs. -/
theorem onlyClearAndResetLowerRegisters : Obligations.OnlyClearAndResetLowerRegisters := by
  refine ⟨Regs.read_cleared, fun n _ => runSteps_read_le n, fun s t i hstep hlt => ?_⟩
  by_contra hother
  obtain ⟨hrst, hclear⟩ := not_or.mp hother
  have hle := step_read_le (Bool.eq_false_of_not_eq_true hrst)
    (fun w ws hcmds hw => hclear ⟨w, ws, hcmds, hw⟩) hstep i
  exact absurd hlt hle.not_gt

/-- Settles O1: the array of the reset state and that after `CLEAR` are both the cleared one. -/
theorem resetLeavesEveryRegisterZero : Obligations.ResetLeavesEveryRegisterZero :=
  ⟨Regs.read_cleared, fun s => ⟨_, exec_clear s, rfl⟩⟩

/-- Settles O4. -/
theorem resetMeetsReachableInvariant : Obligations.ResetMeetsReachableInvariant :=
  State.inv_of_regs_eq_cleared State.reset_regs

/-- Settles O17, action by action. -/
theorem onlyAssertingResetLetsTheHostChangeTheArray : Obligations.OnlyAssertingResetLetsTheHostChangeTheArray :=
  fun s _ => act_regs s

/-- Settles O41: the cleared array has `V = M`, where the linear-counting branch takes the logarithm of 1.0. -/
theorem resetStateEstimatesZero : Obligations.ResetStateEstimatesZero := by
  refine ⟨?_, fun ln hln => ?_⟩
  · rw [exec_est, State.reset_regs, zeroCount_cleared, harmonicSum_cleared]
    rfl
  · rw [estimateWith, State.reset_regs, zeroCount_cleared]
    exact finalWith_of_zeroCount_eq_m hln _

end Sys2Proof.Machine
end

