-- ==== Sys2Proof/Proofs/CommandOrder.lean ====
section
/-! The order of commands. The block runs the words in the order in which they are offered (R50). Where several hosts only
add, that order does not show in the array: the update for one input commutes with that for another on every list, and all
interleavings of the hosts' lists are permutations of each other (R56, R123). -/

namespace Sys2Proof

/-- R42: of two writes to one register, by values that are not 0, the second stands. -/
theorem Regs.put_put_same (r : Regs) (a : Nat) {v w : Byte} (hv : v ≠ 0#8) (hw : w ≠ 0#8) :
    Regs.put (Regs.put r a v) a w = Regs.put r a w := by
  induction r with
  | nil => simp [Regs.put, Regs.unlisted, hv, hw]
  | cons c cs ih =>
    simp only [Regs.put, Regs.unlisted, hv, hw, if_false]
    split_ifs with hlt heq
    · simp [Regs.put, Regs.unlisted, hw]
    · simp [Regs.put, Regs.unlisted, hw]
    · simp [Regs.put, hlt, heq, ih]

end Sys2Proof

namespace Sys2Proof.Machine

/-! ### The order of two updates -/

theorem maxByte_right_comm (a b c : Byte) : maxByte (maxByte a b) c = maxByte (maxByte a c) b :=
  BitVec.eq_of_toNat_eq (by simp only [toNat_maxByte, max_right_comm])

/-- Two updates of one bucket write the larger of both ranks and the old value at once. -/
theorem recordHash_recordHash_of_index_eq (r : Regs) {h h' : Word} (hi : index h' = index h) :
    recordHash (recordHash r h) h' =
      r.write (index h) (maxByte (maxByte (r.read (index h)) (BitVec.ofNat 8 (rankOfHash h)))
        (BitVec.ofNat 8 (rankOfHash h'))) := by
  have hne := maxByte_rank_ne_zero (r.read (index h)) h
  simp only [recordHash, raiseRegister, hi, Regs.read_write_self_pos r _ hne]
  exact Regs.put_put_same r _ hne (maxByte_rank_ne_zero _ h')

/-- Two updates of different buckets are two writes, each of which reads what `r` holds. -/
theorem recordHash_recordHash_of_index_ne (r : Regs) {h h' : Word} (hi : index h' ≠ index h) :
    recordHash (recordHash r h) h' =
      (r.write (index h) (maxByte (r.read (index h)) (BitVec.ofNat 8 (rankOfHash h)))).write (index h')
        (maxByte (r.read (index h')) (BitVec.ofNat 8 (rankOfHash h'))) := by
  rw [← recordHash_read_other r h hi]
  rfl

/-- R123: two updates leave the same array in either order, on every list. -/
theorem recordHash_comm (r : Regs) (h h' : Word) :
    recordHash (recordHash r h) h' = recordHash (recordHash r h') h := by
  by_cases hi : index h' = index h
  · rw [recordHash_recordHash_of_index_eq r hi, recordHash_recordHash_of_index_eq r hi.symm, hi, maxByte_right_comm]
  · have hnum : (index h).toNat ≠ (index h').toNat := fun e => hi (BitVec.eq_of_toNat_eq e.symm)
    rw [recordHash_recordHash_of_index_ne r hi, recordHash_recordHash_of_index_ne r (Ne.symm hi)]
    exact Regs.put_comm r hnum (maxByte_rank_ne_zero _ h) (maxByte_rank_ne_zero _ h')

/-! ### Runs of `ADD` words -/

/-- What the `ADD` word `w` does to the array (R121). -/
def recordWord (r : Regs) (w : CmdWord) : Regs := recordHash r (mix (operandField w))

/-- R62: the opcode 01 decodes to `ADD` of the operand field. -/
theorem decode_of_opField_add {w : CmdWord} (h : opField w = 0b01#2) : decode w = .add (operandField w) := by
  simp [decode, h]

/-- A step that accepts an `ADD` word updates the array for it, and goes on with the words behind. -/
theorem step_of_add_word {s : State} {w : CmdWord} {ws : List CmdWord} (hrst : s.rst = false) (hcmds : s.cmds = w :: ws)
    (hw : opField w = 0b01#2) :
    ∃ t, step s = .next t ∧ t.rst = false ∧ t.cmds = ws ∧ t.regs = recordWord s.regs w := by
  rw [step_of_cmds_eq_cons hrst hcmds, decode_of_opField_add hw]
  exact ⟨_, exec_add _ _, hrst, rfl, rfl⟩

/-- The run of offered `ADD` words is the fold of their updates. -/
theorem runSteps_of_add_words (ws : List CmdWord) {s : State} (hrst : s.rst = false) (hcmds : s.cmds = ws)
    (hws : ∀ w ∈ ws, opField w = 0b01#2) :
    ∃ t, runSteps ws.length s = .next t ∧ t.regs = ws.foldl recordWord s.regs := by
  induction ws generalizing s with
  | nil => exact ⟨s, rfl, rfl⟩
  | cons w ws ih =>
    obtain ⟨hw, hws⟩ := List.forall_mem_cons.mp hws
    obtain ⟨m, hstep, hmrst, hmcmds, hmregs⟩ := step_of_add_word hrst hcmds hw
    obtain ⟨t, hrun, htregs⟩ := ih hmrst hmcmds hws
    exact ⟨t, (runSteps_succ_of_step hstep).trans hrun, by rw [htregs, hmregs, List.foldl_cons]⟩

/-- R123: the order of the updates does not show in the array. -/
theorem foldl_recordWord_of_perm {ws ws' : List CmdWord} (h : ws.Perm ws') (r : Regs) :
    ws.foldl recordWord r = ws'.foldl recordWord r :=
  h.foldl_eq' (fun w _ w' _ r => recordHash_comm r (mix (operandField w)) (mix (operandField w'))) r

/-- R56: an interleaving holds the words of all hosts, each as often as they offer it. -/
theorem Interleaves.perm_flatten {hosts : List (List CmdWord)} {seq : List CmdWord} (h : Interleaves hosts seq) :
    seq.Perm hosts.flatten := by
  induction h with
  | done hosts h => rw [List.flatten_eq_nil_iff.mpr h]
  | pick before after w ws seq _ ih =>
    rw [List.flatten_append, List.flatten_cons] at ih ⊢
    exact (ih.cons w).trans List.perm_middle.symm

/-- The run of any interleaving of the hosts' `ADD` words is the fold of their updates host by host. -/
theorem runSteps_of_interleaved_adds {hosts : List (List CmdWord)} {seq : List CmdWord} (h : Interleaves hosts seq)
    (hadd : ∀ l ∈ hosts, ∀ w ∈ l, opField w = 0b01#2) {s : State} (hrst : s.rst = false) (hcmds : s.cmds = seq) :
    ∃ t, runSteps seq.length s = .next t ∧ t.regs = hosts.flatten.foldl recordWord s.regs := by
  have hseq : ∀ w ∈ seq, opField w = 0b01#2 := fun w hw => by
    obtain ⟨l, hl, hwl⟩ := List.mem_flatten.mp (h.perm_flatten.mem_iff.mp hw)
    exact hadd l hl w hwl
  rw [← foldl_recordWord_of_perm h.perm_flatten]
  exact runSteps_of_add_words seq hrst hcmds hseq

/-! ### The statements -/

/-- Settles O38: every interleaving leaves the array that the hosts' updates leave one host after the other. -/
theorem interleavedAddsAgree : Obligations.InterleavedAddsAgree := by
  intro hosts seq seq' s hrst h h' hadd
  obtain ⟨t, hrun, ht⟩ := runSteps_of_interleaved_adds h hadd (s := { s with cmds := seq }) hrst rfl
  obtain ⟨t', hrun', ht'⟩ := runSteps_of_interleaved_adds h' hadd (s := { s with cmds := seq' }) hrst rfl
  exact ⟨t, t', hrun, hrun', ht.trans ht'.symm⟩

/-- Settles O14: the step takes the front word off the port and runs it. -/
theorem stepRunsTheOfferedCommand : Obligations.StepRunsTheOfferedCommand := fun _ _ _ => step_of_cmds_eq_cons

end Sys2Proof.Machine
end

