-- ==== Sys2Proof/Proofs/ResponseBytes.lean ====
section
/-! The response word and its nine bytes (R44, R65): each keeps the whole response. -/

namespace Sys2Proof

/-- R44: the last byte of a number holds its highest bits. -/
theorem getLast?_natBytes_succ (n w : Nat) : (natBytes (n + 1) w).getLast? = some (BitVec.ofNat 8 (w / 256 ^ n)) := by
  induction n generalizing w with
  | zero => simp [natBytes]
  | succ n ih => rw [natBytes, List.getLast?_cons, ih, Option.getD_some, Nat.div_div_eq_div_mul, pow_succ']

end Sys2Proof

namespace Sys2Proof.Machine

/-- R65: the three fields of the response word are those of the response. -/
@[simp] theorem Response.ofWord_word (r : Response) : Response.ofWord r.word = r := by
  have herr : r.word.extractLsb' 64 1 = r.err := by
    refine BitVec.eq_of_getLsbD_eq fun j hj => ?_
    obtain rfl : j = 0 := by omega
    simp [Response.word]
  have hv : r.word.extractLsb' 48 16 = r.v := by
    refine BitVec.eq_of_getLsbD_eq fun j hj => ?_
    simp [Response.word, hj, show 48 + j < 64 by omega, show 48 + j < 65 by omega]
  have hzfx : r.word.extractLsb' 0 48 = r.zfx := by
    refine BitVec.eq_of_getLsbD_eq fun j hj => ?_
    simp [Response.word, hj, show j < 64 by omega, show j < 65 by omega]
  rw [Response.ofWord, herr, hv, hzfx]

@[simp] theorem Response.length_bytes (r : Response) : r.bytes.length = 9 := length_natBytes 9 _

/-- R44: the nine bytes have room for the 65 bits of the response word. -/
theorem Response.natOfBytes_bytes (r : Response) : natOfBytes r.bytes = r.word.toNat := by
  rw [Response.bytes, natOfBytes_natBytes]
  exact Nat.mod_eq_of_lt (r.word.isLt.trans (by norm_num))

theorem Response.ofBytes_bytes_append (r : Response) (rest : List Byte) :
    Response.ofBytes (r.bytes ++ rest) = .ok (r, rest) := by
  have htake : (r.bytes ++ rest).take 9 = r.bytes := List.take_left' r.length_bytes
  have hdrop : (r.bytes ++ rest).drop 9 = rest := List.drop_left' r.length_bytes
  have hlen : ¬ (r.bytes ++ rest).length < 9 := by simp
  rw [Response.ofBytes, if_neg hlen, htake, hdrop, r.natOfBytes_bytes, if_pos r.word.isLt, BitVec.ofNat_toNat,
    BitVec.setWidth_eq, r.ofWord_word]

/-- R44: the first byte holds bits 7 to 0 of the response word. -/
theorem Response.head?_bytes (r : Response) : r.bytes.head? = some (r.word.extractLsb' 0 8) := by
  rw [Response.bytes, natBytes, List.head?_cons, BitVec.extractLsb', Nat.shiftRight_zero]

/-- R44, R65: the last byte holds `err`, bit 64 of the response word. -/
theorem Response.getLast?_bytes (r : Response) :
    r.bytes.getLast? = some ((r.word.extractLsb' 64 1).setWidth 8) := by
  have hbit : r.word.toNat / 256 ^ 8 < 2 := by
    have hlt := r.word.isLt
    omega
  rw [Response.bytes, getLast?_natBytes_succ]
  refine congrArg some (BitVec.eq_of_toNat_eq ?_)
  simp only [BitVec.toNat_ofNat, BitVec.toNat_setWidth, BitVec.extractLsb'_toNat, Nat.shiftRight_eq_div_pow]
  omega

/-- Settles O52: nine bytes hold the response word, and the word holds the three fields. -/
theorem responseBytesReadBack : Obligations.ResponseBytesReadBack := fun r rest =>
  ⟨r.ofBytes_bytes_append rest, r.length_bytes, r.head?_bytes, r.getLast?_bytes⟩

end Sys2Proof.Machine
end

