-- ==== Sys2Proof/Proofs/CommandWord.lean ====
section
/-! The command word: it is its two fields, the opcode and the operand, and it is its five bytes; what the decoder, the
encoder and the assembler do follows from its fields (R61 to R78). -/

namespace Sys2Proof

/-! ### The word and its fields -/

/-- R61: the opcode and the operand are the whole word. -/
theorem cmdWord_eq_of_fields_eq {w w' : CmdWord} (hop : opField w = opField w')
    (hoperand : operandField w = operandField w') : w = w' := by
  refine BitVec.eq_of_getLsbD_eq fun j hj => ?_
  by_cases hlow : j < 32
  · have hbit := congrArg (fun b => b.getLsbD j) hoperand
    simpa [operandField, hlow] using hbit
  · have hbit := congrArg (fun b => b.getLsbD (j - 32)) hop
    simpa [opField, show j - 32 < 2 by omega, show 32 + (j - 32) = j by omega] using hbit

/-- R63: the mask of the opcode bits keeps the opcode. -/
theorem opField_and_opMask (w : CmdWord) : opField (w &&& 0x300000000#34) = opField w := by
  rw [opField, BitVec.extractLsb'_and, show (0x300000000#34).extractLsb' 32 2 = BitVec.allOnes 2 from rfl,
    BitVec.and_allOnes, opField]

/-- R63: the mask of the opcode bits clears the operand. -/
theorem operandField_and_opMask (w : CmdWord) : operandField (w &&& 0x300000000#34) = 0 := by
  rw [operandField, BitVec.extractLsb'_and, show (0x300000000#34).extractLsb' 0 32 = 0#32 from rfl, BitVec.and_zero]
  rfl

/-! ### Decoding and encoding -/

/-- R62: the opcode 10 decodes to `EST`. -/
theorem decode_of_opField_est {w : CmdWord} (h : opField w = 0b10#2) : decode w = .est := by
  simp [decode, h]

/-- R62: the opcode 11 decodes to the reserved command. -/
theorem decode_of_opField_rsvd {w : CmdWord} (h : opField w = 0b11#2) : decode w = .rsvd := by
  simp [decode, h]

/-- R63: the decoder looks at the operand of `ADD` only. -/
theorem decode_eq_of_opField_eq {w w' : CmdWord} (h : opField w = opField w') (hadd : opField w ≠ 0b01#2) :
    decode w = decode w' := by
  rw [decode, decode, ← h, if_neg hadd, if_neg hadd]

/-- R62: there are four opcodes. -/
theorem opField_cases (w : CmdWord) :
    opField w = 0b00#2 ∨ opField w = 0b01#2 ∨ opField w = 0b10#2 ∨ opField w = 0b11#2 := by
  have four : ∀ b : BitVec 2, b = 0b00#2 ∨ b = 0b01#2 ∨ b = 0b10#2 ∨ b = 0b11#2 := by decide
  exact four _

/-- R61 to R63, R69: the decoder reads back what the encoder wrote. -/
@[simp] theorem decode_encode (i : Instr) : decode (encode i) = i := by
  obtain ⟨hop, hoperand⟩ := Laws.WordFields.fields i
  rw [decode, hop, hoperand]
  cases i <;> rfl

/-- The opcode and the operand of a decoded command: those of the word, but 0 where the operand is ignored (R62, R63). -/
theorem op_operand_decode (w : CmdWord) :
    (decode w).op = opField w ∧ (decode w).operand = if opField w = 0b01#2 then operandField w else 0 := by
  obtain h | h | h | h := opField_cases w
  · rw [(Machine.decode_eq_clear_iff w).mpr h, h]
    exact ⟨rfl, rfl⟩
  · rw [Machine.decode_of_opField_add h, h]
    exact ⟨rfl, rfl⟩
  · rw [decode_of_opField_est h, h]
    exact ⟨rfl, rfl⟩
  · rw [decode_of_opField_rsvd h, h]
    exact ⟨rfl, rfl⟩

/-- R63: encoding a decoded word keeps the bits that have a meaning. -/
theorem encode_decode (w : CmdWord) :
    encode (decode w) = if opField w = 0b01#2 then w else w &&& 0x300000000#34 := by
  obtain ⟨hop, hoperand⟩ := Laws.WordFields.fields (decode w)
  obtain ⟨hdop, hdoperand⟩ := op_operand_decode w
  rw [hdop] at hop
  rw [hdoperand] at hoperand
  split_ifs at hoperand ⊢
  · exact cmdWord_eq_of_fields_eq hop hoperand
  · exact cmdWord_eq_of_fields_eq (hop.trans (opField_and_opMask w).symm)
      (hoperand.trans (operandField_and_opMask w).symm)

/-! ### The five bytes -/

/-- R44: bits `k` to `k + n - 1` of a word, put back in their place, are those bits of the word and no others. -/
theorem getLsbD_extract_in_place (w : CmdWord) (k n : Nat) {j : Nat} (hj : j < 34) :
    ((w.extractLsb' k n).setWidth 34 <<< k).getLsbD j = (decide (k ≤ j ∧ j < k + n) && w.getLsbD j) := by
  by_cases hk : k ≤ j
  · simp [hj, hk, show j - k < n ↔ j < k + n by omega]
  · simp [hk, show j < k by omega]

/-- R44: the five bytes of a word are the word: each bit stands in one of them. -/
theorem joinBytes_extract (w : CmdWord) :
    joinBytes (w.extractLsb' 0 8) (w.extractLsb' 8 8) (w.extractLsb' 16 8) (w.extractLsb' 24 8)
      ((w.extractLsb' 32 2).setWidth 8) = w := by
  refine BitVec.eq_of_getLsbD_eq fun j hj => ?_
  have hlow := getLsbD_extract_in_place w 0 8 hj
  rw [BitVec.shiftLeft_zero] at hlow
  rw [joinBytes, BitVec.setWidth_setWidth (by omega)]
  simp only [BitVec.getLsbD_or, hlow, getLsbD_extract_in_place w _ _ hj, ← Bool.and_or_distrib_right]
  have hplace : j < 8 ∨ (8 ≤ j ∧ j < 16) ∨ (16 ≤ j ∧ j < 24) ∨ (24 ≤ j ∧ j < 32) ∨ (32 ≤ j ∧ j < 34) := by omega
  simpa [or_assoc, Bool.and_eq_right_iff_imp] using fun _ => hplace

/-- The top byte of a word has nothing above bit 33 of the word (log entry 12). -/
theorem topByte_padding (w : CmdWord) : ((w.extractLsb' 32 2).setWidth 8).extractLsb' 2 6 = 0#6 := by
  refine BitVec.eq_of_getLsbD_eq fun j hj => ?_
  simp

/-- R44: reading the bytes of a word, with any bytes after them, decodes the word. -/
theorem decodeBytes_wordBytes_append (w : CmdWord) (rest : List Byte) :
    decodeBytes (wordBytes w ++ rest) = .ok (decode w, rest) := by
  simp only [wordBytes, List.cons_append, List.nil_append, decodeBytes, topByte_padding, if_true, joinBytes_extract]

end Sys2Proof

namespace Sys2Proof.Machine

/-! ### The assembler -/

/-- R77: the lines `ADD v` that assemble are those with `v` in range. -/
theorem wf_add_iff (v : Int) : (AsmLine.add v).wf = true ↔ -2147483648 ≤ v ∧ v ≤ 4294967295 := by
  simp [AsmLine.wf]

/-- R67: the operand of a value in range is the value, with `2^32` added to it where it is negative. -/
theorem toNat_inputOfInt {v : Int} (hlo : -2147483648 ≤ v) (hhi : v ≤ 4294967295) :
    ((inputOfInt v).toNat : Int) = if v < 0 then v + 4294967296 else v := by
  rw [inputOfInt, BitVec.toNat_ofInt]
  split_ifs <;> omega

/-! ### The statements -/

/-- Settles O20: a word is its two fields and its five bytes, and each of encoder and decoder keeps both fields where they
have a meaning. -/
theorem decodeAndEncodeAgree : Obligations.DecodeAndEncodeAgree := by
  refine ⟨decode_encode, fun i rest => ?_, decodeBytes_wordBytes_append, encode_decode⟩
  rw [encodeBytes, decodeBytes_wordBytes_append, decode_encode]

/-- Settles O23: the assembler takes exactly the values in range, and its operand is the value modulo `2^32`. -/
theorem addOperandIsTwosComplement : Obligations.AddOperandIsTwosComplement := by
  refine fun v => ⟨fun ⟨hlo, hhi⟩ => ⟨inputOfInt v, ?_, toNat_inputOfInt hlo hhi⟩, fun hout => ?_⟩
  · rw [assemble, if_pos ((wf_add_iff v).mpr ⟨hlo, hhi⟩)]
  · have hwf : ¬ (AsmLine.add v).wf = true := by
      rw [wf_add_iff]
      omega
    rw [assemble, if_neg hwf]

/-- Settles O18, opcode by opcode. -/
theorem opcodeSelectsTheCommand : Obligations.OpcodeSelectsTheCommand := fun w =>
  ⟨(decode_eq_clear_iff w).mpr, decode_of_opField_add, decode_of_opField_est, decode_of_opField_rsvd⟩

/-- Settles O19, by evaluating the decoder. -/
theorem sampleWordsDecode : Obligations.SampleWordsDecode := by
  unfold Obligations.SampleWordsDecode
  decide

/-- Settles O21: the words decode alike, and a step sees no more of a word than the command it decodes to. -/
theorem operandBitsAreIgnored : Obligations.OperandBitsAreIgnored := by
  intro w w' ws s hop hadd
  have hdecode := decode_eq_of_opField_eq hop hadd
  refine ⟨hdecode, fun hrst => ?_⟩
  rw [step_of_cmds_eq_cons (s := { s with cmds := w :: ws }) hrst rfl,
    step_of_cmds_eq_cons (s := { s with cmds := w' :: ws }) hrst rfl, hdecode]

/-- Settles O24, by evaluating the assembler. -/
theorem pseudoInstructionsExpand : Obligations.PseudoInstructionsExpand := ⟨rfl, rfl, rfl⟩

end Sys2Proof.Machine
end

