-- ==== Sys2Proof/Proofs/ResponseWord.lean ====
section
/-! The response word holds the response record and nothing else (R65). -/

namespace Sys2Proof.Machine

/-- R65: the three fields leave out no bit of the response word. -/
@[simp] theorem Response.word_ofWord (w : RspWord) : (Response.ofWord w).word = w := by
  refine BitVec.eq_of_getLsbD_eq fun j hj => ?_
  obtain hz | hv | rfl : j < 48 ∨ (48 ≤ j ∧ j < 64) ∨ j = 64 := by omega
  · simp [Response.ofWord, Response.word, hj, hz, show j < 64 by omega]
  · simp [Response.ofWord, Response.word, hj, hv, show j - 48 < 16 by omega]
  · simp [Response.ofWord, Response.word]

/-- Settles O22: the record read from the word of a response is the response, field by field, and the word made from that
record is the word. -/
theorem responseWordHoldsTheRecord : Obligations.ResponseWordHoldsTheRecord := by
  refine ⟨fun r => ?_, Response.word_ofWord⟩
  have hrecord := r.ofWord_word
  exact ⟨congrArg Response.err hrecord, congrArg Response.v hrecord, congrArg Response.zfx hrecord, hrecord⟩

end Sys2Proof.Machine
end

