-- ==== Sys2Proof/Proofs/HostPace.lean ====
section
/-! The host's pace: between two moments of a session without reset, the block has run a first part of the words offered,
and what it did is the spec's fold over them (R66, R211, R213). -/

namespace Sys2Proof.Machine

/-! ### The fold over two lists of words, one after the other -/

theorem foldCommands_append_fst (ws ws' : List CmdWord) (a : RegArray) :
    (foldCommands (ws ++ ws') a).1 = (foldCommands ws' (foldCommands ws a).1).1 := by
  induction ws generalizing a with
  | nil => rfl
  | cons w ws ih => exact ih _

theorem foldCommands_append_snd (ws ws' : List CmdWord) (a : RegArray) :
    (foldCommands (ws ++ ws') a).2 = (foldCommands ws a).2 ++ (foldCommands ws' (foldCommands ws a).1).2 := by
  induction ws generalizing a with
  | nil => rfl
  | cons w ws ih => exact congrArg (_ :: ·) (ih _)

/-- R24: the fold takes no register above a bound that admits every rank. -/
theorem foldCommands_le {n : Nat} (hn : 18 ≤ n) (ws : List CmdWord) {a : RegArray} (ha : ∀ i : Bucket, (a i).toNat ≤ n) :
    ∀ i : Bucket, ((foldCommands ws a).1 i).toNat ≤ n := by
  induction ws generalizing a with
  | nil => exact ha
  | cons w ws ih => exact ih (RegArray.command_le hn ha (decode w))

/-! ### What happens between two moments -/

/-- From `s` to `t`, while `offered` came in and `taken` went out, the block ran a first part of the words it had, and the
array and the responses are the fold's over that part. -/
def RunsFold (s : State) (offered : List CmdWord) (t : State) (taken : List Response) : Prop :=
  ∃ accepted : List CmdWord, s.cmds ++ offered = accepted ++ t.cmds ∧
    t.regs.read = (foldCommands accepted s.regs.read).1 ∧
    taken ++ t.rsps = s.rsps ++ (foldCommands accepted s.regs.read).2

/-- No word run: the array is as it was, the words offered wait behind the others and the responses taken are the oldest. -/
theorem RunsFold.of_regs_eq {s t : State} {offered : List CmdWord} {taken : List Response} (hregs : t.regs = s.regs)
    (hcmds : t.cmds = s.cmds ++ offered) (hrsps : taken ++ t.rsps = s.rsps) : RunsFold s offered t taken :=
  ⟨[], hcmds.symm, congrArg Regs.read hregs, hrsps.trans (List.append_nil _).symm⟩

theorem RunsFold.trans {s m t : State} {offered offered' : List CmdWord} {taken taken' : List Response}
    (h : RunsFold s offered m taken) (h' : RunsFold m offered' t taken') :
    RunsFold s (offered ++ offered') t (taken ++ taken') := by
  obtain ⟨acc, hcmds, hregs, hrsps⟩ := h
  obtain ⟨acc', hcmds', hregs', hrsps'⟩ := h'
  rw [hregs] at hregs' hrsps'
  refine ⟨acc ++ acc', ?_, hregs'.trans (foldCommands_append_fst ..).symm, ?_⟩
  · rw [← List.append_assoc, hcmds, List.append_assoc, hcmds', List.append_assoc]
  · rw [List.append_assoc, hrsps', ← List.append_assoc, hrsps, List.append_assoc, foldCommands_append_snd]

theorem RunsFold.read_le {s t : State} {offered : List CmdWord} {taken : List Response}
    (h : RunsFold s offered t taken) (hs : ∀ i : Bucket, (s.regs.read i).toNat ≤ 32) :
    ∀ i : Bucket, (t.regs.read i).toNat ≤ 32 := by
  obtain ⟨acc, -, hregs, -⟩ := h
  rw [hregs]
  exact foldCommands_le (by omega) acc hs

/-! ### One action and a session -/

/-- R203: with `rst` released and no word offered, the block waits as it is (log entry 15). -/
theorem step_of_cmds_eq_nil {s : State} (hrst : s.rst = false) (hcmds : s.cmds = []) : step s = .next s := by
  simp [step, State.accept, hrst, hcmds]

theorem step_runsFold {s t : State} (hrst : s.rst = false) (hs : ∀ i : Bucket, (s.regs.read i).toNat ≤ 32)
    (h : step s = .next t) : RunsFold s [] t [] := by
  cases hcmds : s.cmds with
  | nil =>
    obtain rfl : s = t := by simpa [step_of_cmds_eq_nil hrst hcmds] using h
    exact .of_regs_eq rfl (List.append_nil _).symm rfl
  | cons w ws =>
    obtain ⟨u, hstep, hucmds, -, huregs, hursps⟩ := step_refines_command hrst hcmds hs
    obtain rfl : u = t := by simpa [hstep] using h
    exact ⟨[w], by rw [hcmds, hucmds, List.append_nil, List.singleton_append], huregs, hursps⟩

/-- Every action but asserting `rst` keeps `rst` released, and what it does is the fold over the words it runs. -/
theorem act_runsFold {s : State} (hrst : s.rst = false) (hs : ∀ i : Bucket, (s.regs.read i).toNat ≤ 32)
    {a : HostAction} (ha : a ≠ .setRst true) :
    (act s a).1.rst = false ∧ RunsFold s (offeredWords [a]) (act s a).1 (act s a).2.toList := by
  cases a with
  | setRst level => cases level with
    | true => exact absurd rfl ha
    | false => exact ⟨s.setRst_rst false, .of_regs_eq rfl (List.append_nil _).symm rfl⟩
  | offer w => exact ⟨hrst, .of_regs_eq rfl rfl rfl⟩
  | take =>
    simp only [act]
    split
    · next htake =>
      obtain ⟨hrsps, hregs, hcmds, htrst⟩ := State.take_eq_some htake
      exact ⟨htrst.trans hrst, .of_regs_eq hregs (hcmds.trans (List.append_nil _).symm) hrsps.symm⟩
    · exact ⟨hrst, .of_regs_eq rfl (List.append_nil _).symm rfl⟩
  | blockStep =>
    obtain ⟨t, hstep⟩ := step_eq_next s
    obtain ⟨htrst, -⟩ := step_rst_cmds hstep
    rw [act_blockStep hstep]
    exact ⟨htrst.trans hrst, step_runsFold hrst hs hstep⟩

theorem offeredWords_cons (a : HostAction) (as : List HostAction) :
    offeredWords (a :: as) = offeredWords [a] ++ offeredWords as := by
  cases a <;> rfl

theorem session_runsFold (actions : List HostAction) {s : State} (hrst : s.rst = false)
    (hs : ∀ i : Bucket, (s.regs.read i).toNat ≤ 32) (hactions : ∀ a ∈ actions, a ≠ .setRst true) :
    RunsFold s (offeredWords actions) (session actions s).1 (session actions s).2 := by
  induction actions generalizing s with
  | nil => exact .of_regs_eq rfl (List.append_nil _).symm rfl
  | cons a as ih =>
    obtain ⟨ha, has⟩ := List.forall_mem_cons.mp hactions
    obtain ⟨hmrst, hact⟩ := act_runsFold hrst hs ha
    rw [offeredWords_cons]
    exact hact.trans (ih hmrst (hact.read_le hs) has)

/-! ### The statements -/

/-- Settles O37, by induction on the actions: what two parts of a session do one after the other is the fold over the words
of both. -/
theorem hostPaceDoesNotMatter : Obligations.HostPaceDoesNotMatter := fun actions _ => session_runsFold actions

/-- Settles O13: the frame of every command, and that only `CLEAR` and `ADD` write registers. -/
theorem everyCommandAnswersOnce : Obligations.EveryCommandAnswersOnce := by
  intro i s
  obtain ⟨t, hexec⟩ := exec_eq_next i s
  obtain ⟨hcmds, hrst, ⟨r, hrsps⟩, hregs⟩ := exec_next_cases hexec
  refine ⟨t, r, hexec, hrsps, hcmds, hrst, fun hi => ?_⟩
  obtain ⟨rfl, -⟩ | ⟨x, rfl, -⟩ | ⟨-, hregs⟩ := hregs
  · simp at hi
  · simp at hi
  · exact hregs

end Sys2Proof.Machine
end

