-- ==== Sys2Proof/Proofs/HashMixer.lean ====
section
/-! The hash mixer on numbers and as a map of the words: its xor-shifts, never by 0, are bijections, so the whole is
one exactly where both its products are (R92 to R101). -/

namespace Sys2Proof.Machine

/-! ### The xor-shift -/

@[simp] theorem xorShift_zero (s : Nat) : xorShift 0#32 s = 0#32 := by simp [xorShift]

/-- R93: the xor-shift as arithmetic. -/
theorem toNat_xorShift (v : Word) (s : Nat) : (xorShift v s).toNat = v.toNat ^^^ (v.toNat / 2 ^ s) := by
  rw [xorShift, BitVec.toNat_xor, BitVec.toNat_ushiftRight, Nat.shiftRight_eq_div_pow]

/-- The only word that a shift to the right leaves as it is, is 0. -/
theorem eq_zero_of_ushiftRight_eq {d : Word} {s : Nat} (hs : s ≠ 0) (h : d >>> s = d) : d = 0#32 := by
  have hnum : d.toNat / 2 ^ s = d.toNat := by
    rw [← Nat.shiftRight_eq_div_pow, ← BitVec.toNat_ushiftRight, h]
  obtain hzero | hpow := Nat.div_eq_self.mp hnum
  · exact BitVec.eq_of_toNat_eq hzero
  · exact absurd hpow (Nat.one_lt_two_pow hs).ne'

/-- R101: two words with one xor-shift differ by a word that the shift leaves as it is. -/
theorem xorShift_injective {s : Nat} (hs : s ≠ 0) : Function.Injective (xorShift · s) := by
  intro v w (h : v ^^^ (v >>> s) = w ^^^ (w >>> s))
  have hfixed : (v ^^^ w) >>> s = v ^^^ w := by
    rw [BitVec.ushiftRight_xor_distrib]
    calc v >>> s ^^^ w >>> s = v ^^^ (v ^^^ v >>> s) ^^^ w >>> s := by simp
      _ = v ^^^ (w ^^^ w >>> s) ^^^ w >>> s := by rw [h]
      _ = v ^^^ w := by simp [BitVec.xor_assoc]
  exact BitVec.xor_eq_zero_iff.mp (eq_zero_of_ushiftRight_eq hs hfixed)

/-! ### The product modulo 2^32 -/

/-- R101: the units of the words under the product modulo 2^32 are the odd ones. -/
theorem isUnit_word_iff (k : Word) : IsUnit k ↔ k.toNat % 2 = 1 := by
  rw [isUnit_iff_exists_inv]
  constructor
  · rintro ⟨u, hu⟩
    have hnum : k.toNat * u.toNat % 2 ^ 32 = 1 := by rw [← BitVec.toNat_mul, hu]; rfl
    have hodd : k.toNat * u.toNat % 2 = 1 := by omega
    exact Nat.odd_iff.mp (Nat.odd_mul.mp (Nat.odd_iff.mpr hodd)).1
  · intro hodd
    have hcoprime : Nat.Coprime k.toNat (2 ^ 32) := (Nat.coprime_two_right.mpr (Nat.odd_iff.mpr hodd)).pow_right 32
    obtain ⟨u, -, hu⟩ := Nat.exists_mul_mod_eq_one_of_coprime hcoprime (by norm_num)
    refine ⟨BitVec.ofNat 32 u, BitVec.eq_of_toNat_eq ?_⟩
    rw [BitVec.toNat_mul, BitVec.toNat_ofNat, Nat.mul_mod_mod, hu]
    rfl

/-! ### The mixing function -/

/-- A composition of maps of a finite set to itself is a bijection exactly when both maps are. -/
theorem bijective_comp_iff {α : Type} [Finite α] (f g : α → α) :
    Function.Bijective (f ∘ g) ↔ Function.Bijective f ∧ Function.Bijective g := by
  refine ⟨fun h => ?_, fun ⟨hf, hg⟩ => hf.comp hg⟩
  have hg := Finite.injective_iff_bijective.mp h.injective.of_comp
  exact ⟨(Function.Bijective.of_comp_iff f hg).mp h, hg⟩

theorem xorShift_bijective {s : Nat} (hs : s ≠ 0) : Function.Bijective (xorShift · s) :=
  Finite.injective_iff_bijective.mp (xorShift_injective hs)

theorem mixWith_eq_comp (p : MixParams) :
    mixWith p = (xorShift · p.s3) ∘ (· * p.k2) ∘ (xorShift · p.s2) ∘ (· * p.k1) ∘ (xorShift · p.s1) := rfl

/-- R101: the three xor-shifts are bijections, so the two products decide. -/
theorem mixWith_bijective_iff (p : MixParams) :
    Function.Bijective (mixWith p) ↔ p.k1.toNat % 2 = 1 ∧ p.k2.toNat % 2 = 1 := by
  have h1 : Function.Bijective (xorShift · p.s1) := xorShift_bijective (Nat.succ_ne_zero _)
  have h2 : Function.Bijective (xorShift · p.s2) := xorShift_bijective (Nat.succ_ne_zero _)
  have h3 : Function.Bijective (xorShift · p.s3) := xorShift_bijective (Nat.succ_ne_zero _)
  simp only [mixWith_eq_comp, bijective_comp_iff, h1, h2, h3, ← IsUnit.isUnit_iff_mulRight_bijective, isUnit_word_iff,
    true_and, and_true]
  exact and_comm

@[simp] theorem mixWith_zero (p : MixParams) : mixWith p 0#32 = 0#32 := by simp [mixWith]

@[simp] theorem mix_zero : mix 0#32 = 0#32 := mixWith_zero Config.mixParams

/-! ### The split of the hash -/

/-- R95: the index as arithmetic. -/
theorem toNat_index (h : Word) : (index h).toNat = h.toNat % 32768 := by
  rw [index, BitVec.extractLsb'_toNat, Nat.shiftRight_zero]

/-- R96: the guard bit stands above every bit of the hash that the tail keeps, so setting it adds it. -/
theorem toNat_tail (h : Word) : (tail h).toNat = h.toNat / 32768 + 0x20000 := by
  have hkept : h.toNat / 2 ^ 15 < 2 ^ 17 := by omega
  calc (tail h).toNat = h.toNat / 2 ^ 15 % 2 ^ 18 ||| 2 ^ 17 := by
        rw [tail, BitVec.toNat_or, BitVec.toNat_setWidth, BitVec.toNat_ushiftRight, Nat.shiftRight_eq_div_pow]
        rfl
    _ = 2 ^ 17 ||| h.toNat / 2 ^ 15 := by rw [Nat.mod_eq_of_lt (by omega), Nat.or_comm]
    _ = 2 ^ 17 + h.toNat / 2 ^ 15 := (Nat.two_pow_add_eq_or_of_lt hkept 1).symm
    _ = h.toNat / 32768 + 0x20000 := Nat.add_comm _ _

/-! ### The statements -/

/-- Settles O26: every xor-shift and every product keeps 0, and the tail of the hash 0 is the guard bit alone. -/
theorem mixOfZeroIsZero : Obligations.MixOfZeroIsZero := by
  have hindex : index 0#32 = 0#15 := by decide
  have htail : tail 0#32 = 0x20000#18 := by decide
  have hrank : rankOfHash 0#32 = 18 := by decide
  refine ⟨fun p => ?_, fun s => ⟨_, exec_add 0#32 s, ?_, fun j hj => ?_⟩⟩
  · rw [mixWith_zero]
    exact ⟨rfl, hindex, htail⟩
  · have hself := recordHash_read_self s.regs 0#32
    rw [hindex, hrank] at hself
    simpa using hself
  · have hother := recordHash_read_other s.regs 0#32 (hindex ▸ hj)
    simpa using hother

/-- Settles O27: a composition of maps of the finite set of words is a bijection exactly when all of them are. -/
theorem mixIsBijectiveExactlyForOddMultipliers : Obligations.MixIsBijectiveExactlyForOddMultipliers :=
  ⟨mixWith_bijective_iff, (mixWith_bijective_iff MixParams.published).mpr (by decide)⟩

/-- Settles O28, from the index and the tail as arithmetic and the lowest set bit that the rank reads. -/
theorem splitUsesEveryHashBitOnce : Obligations.SplitUsesEveryHashBitOnce := by
  intro h
  have hindex := toNat_index h
  have htail := toNat_tail h
  obtain ⟨q, hq, hset, hlowest, -⟩ := rankOfHash_spec h
  exact ⟨hindex, htail, by omega, by omega, by omega, q, by omega, hset, hlowest⟩

/-- Settles O25, by the number of each xor-shift and of each product. -/
theorem mixIsTwoRoundsModulo32Bits : Obligations.MixIsTwoRoundsModulo32Bits := by
  intro p x
  simp only [mixWith, toNat_xorShift, BitVec.toNat_mul]

end Sys2Proof.Machine
end

