-- ==== Sys2Proof/Proofs/BitScan.lean ====
section
/-! The scan of `RANK`: which hashes give which rank, and the rank as a count of factors 2 (R113, R114). -/

namespace Sys2Proof.Machine

/-- A power of 2 divides a number exactly where the bits below its own are clear. -/
theorem two_pow_dvd_toNat_iff {w : Nat} (t : BitVec w) (k : Nat) :
    2 ^ k ∣ t.toNat ↔ ∀ j, j < k → t.getLsbD j = false := by
  have hbit : ∀ j, (t.toNat % 2 ^ k).testBit j = (decide (j < k) && t.getLsbD j) := fun j =>
    Nat.testBit_mod_two_pow t.toNat k j
  rw [Nat.dvd_iff_mod_eq_zero]
  constructor
  · intro hmod j hj
    simpa [hmod, hj] using (hbit j).symm
  · intro hclear
    refine Nat.zero_of_testBit_eq_false fun j => ?_
    by_cases hj : j < k
    · rw [hbit, hclear j hj, Bool.and_false]
    · simp [hbit, hj]

/-- R113: the rank names the position of the lowest set bit of the tail value, which is one position only. -/
theorem rankOfHash_eq_succ_iff (h : Word) (q : Nat) :
    rankOfHash h = q + 1 ↔ (tail h).getLsbD q = true ∧ ∀ j, j < q → (tail h).getLsbD j = false := by
  obtain ⟨p, -, hset, hlowest, hrank⟩ := rankOfHash_spec h
  constructor
  · intro hq
    obtain rfl : p = q := by omega
    exact ⟨hset, hlowest⟩
  · rintro ⟨hqset, hqlowest⟩
    have hpq : ¬ p < q := fun hlt => by simp [hqlowest p hlt] at hset
    have hqp : ¬ q < p := fun hlt => by simp [hlowest q hlt] at hqset
    omega

theorem one_le_rankOfHash (h : Word) : 1 ≤ rankOfHash h := by
  obtain ⟨q, -, -, -, hrank⟩ := rankOfHash_spec h
  omega

/-- R113: only the guard bit is left to the scan where bits 31:15 of the hash are clear. -/
theorem rankOfHash_eq_eighteen_iff (h : Word) : rankOfHash h = 18 ↔ h.extractLsb' 15 17 = 0#17 := by
  rw [rankOfHash_eq_succ_iff h 17]
  constructor
  · rintro ⟨-, hclear⟩
    refine BitVec.eq_of_getLsbD_eq fun j hj => ?_
    simpa [hj, tail_bit h hj] using hclear j hj
  · intro hzero
    refine ⟨tail_guard h, fun j hj => ?_⟩
    have hbit : (h.extractLsb' 15 17).getLsbD j = false := by simp [hzero]
    simpa [hj, tail_bit h hj] using hbit

/-- R113: below the guard bit the scan reads bit 15 + q of the hash at position q. -/
theorem rankOfHash_eq_succ_iff_hash_bit (h : Word) {q : Nat} (hq : q < 17) :
    rankOfHash h = q + 1 ↔
      h.getLsbD (15 + q) = true ∧ ∀ j, 15 ≤ j → j < 15 + q → h.getLsbD j = false := by
  rw [rankOfHash_eq_succ_iff, tail_bit h hq]
  refine and_congr_right fun _ => ⟨fun hclear j hj hjq => ?_, fun hclear j hj => ?_⟩
  · obtain ⟨i, rfl⟩ := Nat.exists_eq_add_of_le hj
    rw [← tail_bit h (by omega)]
    exact hclear i (by omega)
  · rw [tail_bit h (by omega)]
    exact hclear (15 + j) (by omega) (by omega)

/-! ### The statements -/

/-- Settles O29: the rank is the position of the one lowest set bit of the tail value, plus 1, and the tail value is bits
31:15 of the hash below the guard bit. -/
theorem rankOfTailIsLowestSetBit : Obligations.RankOfTailIsLowestSetBit := by
  intro h
  refine ⟨one_le_rankOfHash h, rankOfHash_le h, rankOfHash_eq_eighteen_iff h, fun k hk hk17 => ?_⟩
  obtain ⟨q, rfl⟩ := Nat.exists_eq_add_of_le' hk
  exact rankOfHash_eq_succ_iff_hash_bit h (by omega)

/-- Settles O30: the bits below the lowest set bit are clear, so its power of 2 divides the operand and the next one, for
which that bit would have to be clear, does not. -/
theorem rankIsOnePlusTrailingZeros : Obligations.RankIsOnePlusTrailingZeros := by
  refine ⟨fun t ht => ?_, rfl⟩
  obtain ⟨q, -, hset, hlowest, hrank⟩ | ⟨hzero, -⟩ := rank_spec t
  · refine ⟨q, hrank, (two_pow_dvd_toNat_iff t q).mpr hlowest, fun hdvd => ?_, hlowest⟩
    have hclear := (two_pow_dvd_toNat_iff t (q + 1)).mp hdvd q q.lt_succ_self
    simp [hset] at hclear
  · exact absurd hzero ht

end Sys2Proof.Machine
end

