-- ==== Sys2Proof/Proofs/RegisterUpdater.lean ====
section
/-! The register updater: `ADD` raises one register to a maximum and keeps the others, `CLEAR` writes 0 to all, and a run of
`ADD`s leaves in each register the largest rank recorded there, whatever their order and repetitions (R121 to R126). -/

namespace Sys2Proof.Machine

/-! ### One update, repeated -/

/-- R122: an update by a rank that the register has reached already writes what it holds. -/
theorem recordHash_eq_self {r : Regs} {h : Word} (hle : rankOfHash h ≤ (r.read (index h)).toNat) :
    recordHash r h = r := by
  have hmax : maxByte (r.read (index h)) (BitVec.ofNat 8 (rankOfHash h)) = r.read (index h) :=
    BitVec.eq_of_toNat_eq (by rw [toNat_maxByte, toNat_rankByte, max_eq_left hle])
  have hne : r.read (index h) ≠ 0#8 := hmax ▸ maxByte_rank_ne_zero _ h
  rw [recordHash, raiseRegister, hmax]
  exact Regs.put_same r hne

/-- R122: after an update the register has reached the rank. -/
theorem rankOfHash_le_recordHash_read (r : Regs) (h : Word) :
    rankOfHash h ≤ ((recordHash r h).read (index h)).toNat := by
  rw [recordHash_read_self]
  exact le_max_right _ _

/-! ### Many updates -/

/-- R123: updates one after the other leave in a register the largest of what it held and the ranks of its bucket. -/
theorem read_foldl_recordHash (hs : List Word) (r : Regs) (i : Bucket) :
    ((hs.foldl recordHash r).read i).toNat =
      ((hs.filter fun h => index h = i).map rankOfHash).foldl max (r.read i).toNat := by
  induction hs generalizing r with
  | nil => rfl
  | cons h hs ih =>
    rw [List.foldl_cons, ih]
    by_cases hi : index h = i
    · subst hi
      simp [recordHash_read_self]
    · rw [recordHash_read_other r h (Ne.symm hi)]
      simp [hi]

theorem foldl_recordHash_wf (hs : List Word) {r : Regs} (hr : r.wf = true) : (hs.foldl recordHash r).wf = true := by
  induction hs generalizing r with
  | nil => exact hr
  | cons h hs ih => exact ih (recordHash_wf hr h)

/-- The maximum of a list of numbers depends on its members only. -/
theorem foldl_max_eq_of_mem_iff {ns ns' : List Nat} (hmem : ∀ n, n ∈ ns ↔ n ∈ ns') :
    ns.foldl max 0 = ns'.foldl max 0 := by
  have hsup : ∀ l : List Nat, l.foldl max 0 = l.toFinset.sup id := fun l => by
    rw [List.foldl_eq_foldr]
    exact List.foldr_sup_eq_sup_toFinset l
  rw [hsup, hsup, List.toFinset.ext hmem]

/-- R123: over the cleared array, what the updates leave depends only on the set of the hashes. -/
theorem foldl_recordHash_cleared_of_mem_iff {hs hs' : List Word} (hmem : ∀ h, h ∈ hs ↔ h ∈ hs') :
    hs.foldl recordHash Regs.cleared = hs'.foldl recordHash Regs.cleared := by
  refine Regs.ext_of_read (foldl_recordHash_wf hs Regs.wf_cleared) (foldl_recordHash_wf hs' Regs.wf_cleared)
    fun i => BitVec.eq_of_toNat_eq ?_
  rw [read_foldl_recordHash, read_foldl_recordHash]
  exact foldl_max_eq_of_mem_iff fun n => by simp only [List.mem_map, List.mem_filter, hmem]

/-! ### Runs of `CLEAR` and `ADD`s -/

/-- What the encoded `ADD x` does to the array is the update for `x`. -/
theorem recordWord_encode_add (r : Regs) (x : Word) : recordWord r (encode (.add x)) = recordHash r (mix x) := by
  obtain ⟨-, hoperand⟩ := Laws.WordFields.fields (.add x)
  rw [recordWord, hoperand]
  rfl

/-- The run of the encoded `ADD`s of some values is the fold of their updates. -/
theorem runSteps_of_encoded_adds (xs : List Word) {s : State} (hrst : s.rst = false)
    (hcmds : s.cmds = xs.map fun x => encode (.add x)) :
    ∃ t, runSteps xs.length s = .next t ∧ t.regs = (xs.map mix).foldl recordHash s.regs := by
  have hadd : ∀ w ∈ xs.map fun x => encode (.add x), opField w = 0b01#2 :=
    List.forall_mem_map.mpr fun x _ => (Laws.WordFields.fields (.add x)).1
  obtain ⟨t, hrun, hregs⟩ := runSteps_of_add_words _ hrst hcmds hadd
  rw [List.length_map] at hrun
  simp only [List.foldl_map, recordWord_encode_add] at hregs
  exact ⟨t, hrun, by rw [hregs, List.foldl_map]⟩

/-- R123: the run of `CLEAR` and the `ADD`s of some values is the fold of their updates over the cleared array. -/
theorem runSteps_of_clear_then_adds (xs : List Word) {s : State} (hrst : s.rst = false)
    (hcmds : s.cmds = encode .clear :: xs.map fun x => encode (.add x)) :
    ∃ t, runSteps (xs.length + 1) s = .next t ∧ t.regs = (xs.map mix).foldl recordHash Regs.cleared := by
  have hstep := step_of_cmds_eq_cons hrst hcmds
  rw [decode_encode, exec_clear] at hstep
  rw [runSteps_succ_of_step hstep]
  exact runSteps_of_encoded_adds xs hrst rfl

/-! ### The statements -/

/-- Settles O32: updates commute, and the run after `CLEAR` leaves the maxima of the ranks in the buckets, which the set of
the values added decides. -/
theorem arrayDependsOnlyOnTheSetAdded : Obligations.ArrayDependsOnlyOnTheSetAdded := by
  refine ⟨fun x y s => ⟨_, _, _, _, exec_add x s, exec_add y _, exec_add y s, exec_add x _,
    recordHash_comm s.regs (mix x) (mix y)⟩, fun xs ys s hrst hmem => ?_⟩
  obtain ⟨t, hrun, ht⟩ := runSteps_of_clear_then_adds xs
    (s := { s with cmds := encode .clear :: xs.map fun x => encode (.add x) }) hrst rfl
  obtain ⟨u, hrun', hu⟩ := runSteps_of_clear_then_adds ys
    (s := { s with cmds := encode .clear :: ys.map fun x => encode (.add x) }) hrst rfl
  refine ⟨t, u, hrun, hrun', ?_, fun i => ?_⟩
  · rw [ht, hu]
    exact foldl_recordHash_cleared_of_mem_iff fun h => by simp only [List.mem_map, hmem]
  · rw [ht, read_foldl_recordHash, List.filter_map, List.map_map]
    rfl

/-- Settles O8: the effect of `CLEAR` is its rule, and every other command keeps or raises each register. -/
theorem clearZeroesEveryRegister : Obligations.ClearZeroesEveryRegister :=
  ⟨fun s => ⟨_, exec_clear s, Regs.read_cleared, rfl, rfl, rfl, rfl⟩, fun _ _ _ => exec_read_le⟩

/-- Settles O9: the array of `ADD x` is the update for the hash of `x`. -/
theorem addRaisesOneRegister : Obligations.AddRaisesOneRegister := fun x s =>
  ⟨_, exec_add x s, recordHash_read_self s.regs (mix x), fun _ => recordHash_read_other s.regs (mix x), rfl, rfl, rfl⟩

/-- Settles O10: the new register is a maximum of two numbers at most 18, one of them the rank. -/
theorem addKeepsRegisterRanges : Obligations.AddKeepsRegisterRanges := by
  rintro x s ⟨-, hle⟩
  exact ⟨_, exec_add x s, one_le_rankOfHash _, rankOfHash_le _, hle _,
    (one_le_rankOfHash _).trans (rankOfHash_le_recordHash_read s.regs (mix x)),
    recordHash_read_le le_rfl hle (mix x) _, read_le_recordHash_read s.regs (mix x) _⟩

/-- Settles O31: the first `ADD x` brings the register to the rank, and from there the update writes what it reads. -/
theorem repeatedAddChangesNothing : Obligations.RepeatedAddChangesNothing :=
  ⟨fun x s => ⟨_, _, exec_add x s, exec_add x _, recordHash_eq_self (rankOfHash_le_recordHash_read s.regs (mix x))⟩,
    fun x s hle => ⟨_, exec_add x s, recordHash_eq_self hle⟩⟩

end Sys2Proof.Machine
end

