-- ==== Sys2Proof/Proofs/RegisterPass.lean ====
section
/-! The register pass (command `EST`): what `V` and `Z_fx` are over the registers read bucket by bucket, their ranges, and
`V` after a run of commands (R140 to R148). -/

namespace Sys2Proof.Machine

/-! ### Registers by number and by bucket -/

theorem ofNat_toNat_bucket (i : Bucket) : BitVec.ofNat 15 i.toNat = i := by
  rw [BitVec.ofNat_toNat, BitVec.setWidth_eq]

theorem toNat_mem_range (i : Bucket) : i.toNat ∈ Finset.range 32768 := Finset.mem_range.mpr i.isLt

theorem toNat_ofNat_of_mem_range {k : Nat} (hk : k ∈ Finset.range 32768) : (BitVec.ofNat 15 k).toNat = k := by
  rw [BitVec.toNat_ofNat]
  exact Nat.mod_eq_of_lt (Finset.mem_range.mp hk)

/-- R7, R20: the numbers below `M` name every bucket. -/
theorem forall_mem_range_iff_forall_bucket (p : Bucket → Prop) :
    (∀ k ∈ Finset.range 32768, p (BitVec.ofNat 15 k)) ↔ ∀ i : Bucket, p i := by
  refine ⟨fun h i => ?_, fun h k _ => h _⟩
  rw [← ofNat_toNat_bucket i]
  exact h i.toNat (toNat_mem_range i)

/-- R7, R20: the registers with a property are as many by number as by bucket. -/
theorem card_filter_range_of_mem_iff {p : Bucket → Prop} [DecidablePred p] {bs : Finset Bucket}
    (h : ∀ i, i ∈ bs ↔ p i) :
    ((Finset.range 32768).filter fun k => p (BitVec.ofNat 15 k)).card = bs.card := by
  refine Finset.card_nbij' (BitVec.ofNat 15) BitVec.toNat (fun k hk => ?_) (fun i hi => ?_) (fun k hk => ?_) fun i _ =>
    ofNat_toNat_bucket i
  · exact (h _).mpr (Finset.mem_filter.mp hk).2
  · refine Finset.mem_filter.mpr ⟨toNat_mem_range i, ?_⟩
    rw [ofNat_toNat_bucket]
    exact (h i).mp hi
  · exact toNat_ofNat_of_mem_range (Finset.mem_filter.mp hk).1

/-! ### The count -/

/-- R143: `V` and the number of registers above 0 make up `M`. -/
theorem toNat_zeroCount_add_card_nonzero (r : Regs) :
    r.zeroCount.toNat + ((Finset.range 32768).filter fun k => r.read (BitVec.ofNat 15 k) ≠ 0#8).card = 32768 := by
  rw [toNat_zeroCount, Finset.card_filter_add_card_filter_not, Finset.card_range]

/-- R148: `V` is `M` less the number of buckets above 0. -/
theorem toNat_zeroCount_add_card {r : Regs} {bs : Finset Bucket} (h : ∀ i, i ∈ bs ↔ r.read i ≠ 0#8) :
    r.zeroCount.toNat + bs.card = 32768 := by
  rw [← card_filter_range_of_mem_iff h]
  exact toNat_zeroCount_add_card_nonzero r

theorem toNat_zeroCount_le (r : Regs) : r.zeroCount.toNat ≤ 32768 := by
  have := toNat_zeroCount_add_card_nonzero r
  omega

/-- R143: `V = M` exactly where every register is 0. -/
theorem toNat_zeroCount_eq_m_iff (r : Regs) : r.zeroCount.toNat = 32768 ↔ ∀ i : Bucket, r.read i = 0#8 := by
  rw [toNat_zeroCount, ← forall_mem_range_iff_forall_bucket fun i => r.read i = 0#8, ← Finset.card_filter_eq_iff,
    Finset.card_range]

/-! ### The sum -/

/-- R143: each register is worth at least `2^(32 - n)` where none is above `n`. -/
theorem two_pow_le_toNat_harmonicSum {r : Regs} {n : Nat} (hn : n ≤ 32) (hr : ∀ i : Bucket, (r.read i).toNat ≤ n) :
    32768 * 2 ^ (32 - n) ≤ r.harmonicSum.toNat := by
  rw [toNat_harmonicSum fun i => (hr i).trans hn]
  refine le_trans (by simp) (Finset.card_nsmul_le_sum (Finset.range 32768) _ (2 ^ (32 - n)) fun k _ => ?_)
  exact Nat.pow_le_pow_right (by norm_num) (Nat.sub_le_sub_left (hr _) 32)

/-- R142, R143: no register is worth more than `2^32`. -/
theorem toNat_harmonicSum_le {r : Regs} (hr : ∀ i : Bucket, (r.read i).toNat ≤ 32) : r.harmonicSum.toNat ≤ 2 ^ 47 := by
  rw [toNat_harmonicSum hr]
  refine (Finset.sum_le_card_nsmul _ _ (2 ^ 32) fun k _ => ?_).trans (by simp)
  exact Nat.pow_le_pow_right (by norm_num) (Nat.sub_le _ _)

/-- R143: `M` equal registers are worth `M` equal terms. -/
theorem toNat_harmonicSum_of_forall_eq {r : Regs} {b : Byte} (hb : b.toNat ≤ 32) (hr : ∀ i : Bucket, r.read i = b) :
    r.harmonicSum.toNat = 32768 * 2 ^ (32 - b.toNat) := by
  rw [toNat_harmonicSum fun i => (hr i).symm ▸ hb]
  simp [hr]

/-- R143: each zero register is worth `2^32`. -/
theorem toNat_zeroCount_mul_le_toNat_harmonicSum {r : Regs} (hr : ∀ i : Bucket, (r.read i).toNat ≤ 32) :
    r.zeroCount.toNat * 2 ^ 32 ≤ r.harmonicSum.toNat := by
  rw [toNat_zeroCount, toNat_harmonicSum hr, ← smul_eq_mul]
  refine (Finset.card_nsmul_le_sum _ _ (2 ^ 32) fun k hk => ?_).trans
    (Finset.sum_le_sum_of_subset (Finset.filter_subset _ _))
  rw [(Finset.mem_filter.mp hk).2]
  exact le_rfl

/-- R141: one register that may be above 0 among zeros adds its own term to `M - 1` terms `2^32`. -/
theorem toNat_harmonicSum_of_others_zero {r : Regs} {i : Bucket} (hothers : ∀ j : Bucket, j ≠ i → r.read j = 0#8)
    (hi : (r.read i).toNat ≤ 32) : r.harmonicSum.toNat = 32767 * 2 ^ 32 + 2 ^ (32 - (r.read i).toNat) := by
  have hle : ∀ j : Bucket, (r.read j).toNat ≤ 32 := fun j => by
    by_cases hj : j = i
    · rwa [hj]
    · simp [hothers j hj]
  have hterm : ∀ k ∈ (Finset.range 32768).erase i.toNat, 2 ^ (32 - (r.read (BitVec.ofNat 15 k)).toNat) = 2 ^ 32 := by
    intro k hk
    obtain ⟨hne, hmem⟩ := Finset.mem_erase.mp hk
    have hother : BitVec.ofNat 15 k ≠ i := fun h => hne (by rw [← h, toNat_ofNat_of_mem_range hmem])
    simp [hothers _ hother]
  rw [toNat_harmonicSum hle, ← Finset.sum_erase_add _ _ (toNat_mem_range i), Finset.sum_congr rfl hterm,
    Finset.sum_const, Finset.card_erase_of_mem (toNat_mem_range i), Finset.card_range, ofNat_toNat_bucket, smul_eq_mul]

/-! ### The zero registers after a run -/

/-- R124: an update leaves every bucket but its own at 0 that is at 0, and its own above 0. -/
theorem recordHash_read_eq_zero_iff (r : Regs) (h : Word) (i : Bucket) :
    (recordHash r h).read i = 0#8 ↔ r.read i = 0#8 ∧ i ≠ index h := by
  by_cases hi : i = index h
  · subst hi
    refine iff_of_false (fun hzero => ?_) fun hne => hne.2 rfl
    have hrank := rankOfHash_le_recordHash_read r h
    rw [hzero] at hrank
    exact absurd ((one_le_rankOfHash h).trans hrank) (by decide)
  · simp [recordHash_read_other r h hi, hi]

/-- R148: updates leave at 0 the buckets at 0 that no hash selects. -/
theorem read_foldl_recordHash_eq_zero_iff (hs : List Word) (r : Regs) (i : Bucket) :
    (hs.foldl recordHash r).read i = 0#8 ↔ r.read i = 0#8 ∧ i ∉ hs.map index := by
  induction hs generalizing r with
  | nil => simp
  | cons h hs ih =>
    rw [List.foldl_cons, ih, recordHash_read_eq_zero_iff, List.map_cons, List.mem_cons, not_or, and_assoc]

/-- R148: `V` after the updates for any hashes, whatever function gave them. -/
theorem toNat_zeroCount_foldl_recordHash (hs : List Word) :
    (hs.foldl recordHash Regs.cleared).zeroCount.toNat + (hs.map index).toFinset.card = 32768 :=
  toNat_zeroCount_add_card fun i => by simp [read_foldl_recordHash_eq_zero_iff]

/-! ### Runs that end with `EST` -/

/-- What a command does to the array (R121, R126, R141, R180). -/
def regsAfter (r : Regs) : Instr → Regs
  | .clear => Regs.cleared
  | .add x => recordHash r (mix x)
  | .est => r
  | .rsvd => r

/-- The response of `EST` over the array `r` (R141). -/
def estResponse (r : Regs) : Response := ⟨errNone, r.zeroCount, r.harmonicSum⟩

/-- Every command does to the array what `regsAfter` says. -/
theorem exec_regs {i : Instr} {s t : State} (h : exec i s = .next t) : t.regs = regsAfter s.regs i := by
  obtain ⟨-, -, -, ⟨rfl, hregs⟩ | ⟨x, rfl, hregs⟩ | ⟨rfl | rfl, hregs⟩⟩ := exec_next_cases h <;> exact hregs

/-- The words offered before an `EST` act on the array one after the other and answer once each; the `EST` answers for the
array they leave. -/
theorem runSteps_of_words_then_est (ws : List CmdWord) {s : State} (hrst : s.rst = false)
    (hcmds : s.cmds = ws ++ [encode .est]) :
    ∃ t rs, runSteps (ws.length + 1) s = .next t ∧ rs.length = ws.length ∧
      t.regs = (ws.map decode).foldl regsAfter s.regs ∧ t.rsps = s.rsps ++ rs ++ [estResponse t.regs] := by
  induction ws generalizing s with
  | nil =>
    have hstep := step_of_cmds_eq_cons hrst hcmds
    rw [decode_encode, exec_est] at hstep
    exact ⟨_, [], runSteps_succ_of_step hstep, rfl, rfl, by rw [List.append_nil]; rfl⟩
  | cons w ws ih =>
    obtain ⟨m, hexec⟩ := exec_eq_next (decode w) { s with cmds := ws ++ [encode .est] }
    obtain ⟨hmcmds, hmrst, ⟨r, hmrsps⟩, -⟩ := exec_next_cases hexec
    obtain ⟨t, rs, hrun, hlen, hregs, hrsps⟩ := ih (hmrst.trans hrst) hmcmds
    refine ⟨t, r :: rs, (runSteps_succ_of_step ((step_of_cmds_eq_cons hrst hcmds).trans hexec)).trans hrun,
      congrArg (· + 1) hlen, ?_, ?_⟩
    · rw [hregs, exec_regs hexec, List.map_cons, List.foldl_cons]
    · rw [hrsps, hmrsps, List.append_assoc s.rsps, List.singleton_append]

/-- R148: what `CLEAR` and the `ADD`s of some values leave is the fold of their updates over the cleared array. -/
theorem foldl_regsAfter_clear_then_adds (r : Regs) (xs : List Word) :
    ((encode .clear :: xs.map fun x => encode (.add x)).map decode).foldl regsAfter r =
      (xs.map mix).foldl recordHash Regs.cleared := by
  simp [List.foldl_map, regsAfter]

/-- R147: `EST` and reserved words leave the array as it is. -/
theorem foldl_regsAfter_of_est_or_rsvd {ws : List CmdWord} (hws : ∀ w ∈ ws, opField w = 0b10#2 ∨ opField w = 0b11#2)
    (r : Regs) : (ws.map decode).foldl regsAfter r = r := by
  refine List.foldlRecOn (motive := (· = r)) _ _ rfl fun q hq i hi => ?_
  obtain ⟨w, hw, rfl⟩ := List.mem_map.mp hi
  obtain hop | hop := hws w hw
  · rw [decode_of_opField_est hop, hq, regsAfter]
  · rw [decode_of_opField_rsvd hop, hq, regsAfter]

/-! ### The statements -/

/-- Settles O33: `EST` counts the registers that the updates for the values left at 0, and those are the buckets that no
value has. -/
theorem zeroCountIsMLessDistinctBuckets : Obligations.ZeroCountIsMLessDistinctBuckets := by
  refine ⟨fun xs s hrst => ?_, fun anyMix xs => ?_⟩
  · obtain ⟨t, rs, hrun, hlen, hregs, hrsps⟩ := runSteps_of_words_then_est
      (encode .clear :: xs.map fun x => encode (.add x))
      (s := { s with cmds := (encode .clear :: xs.map fun x => encode (.add x)) ++ [encode .est] }) hrst rfl
    rw [foldl_regsAfter_clear_then_adds] at hregs
    rw [List.length_cons, List.length_map] at hrun hlen
    refine ⟨t, rs, estResponse t.regs, hrun, hrsps, hlen, ?_⟩
    have hcount := toNat_zeroCount_foldl_recordHash (xs.map mix)
    rw [← hregs, List.map_map] at hcount
    exact hcount
  · have hcount := toNat_zeroCount_foldl_recordHash (xs.map anyMix)
    rw [List.map_map] at hcount
    exact hcount

/-- Settles O11: the answer of `EST` is the pair of the register pass. -/
theorem estAnswersCountAndSum : Obligations.EstAnswersCountAndSum := fun s =>
  ⟨s.regs.zeroCount, s.regs.harmonicSum, exec_est s, toNat_zeroCount s.regs, toNat_harmonicSum⟩

/-- Settles O34: no word from the first `EST` on changes the array, and the last one answers for that array too. -/
theorem estIsRepeatable : Obligations.EstIsRepeatable := by
  intro s ws hrst hws
  have hstep := step_of_cmds_eq_cons (s := { s with cmds := (encode .est :: ws) ++ [encode .est] }) hrst rfl
  rw [decode_encode, exec_est] at hstep
  obtain ⟨t, mid, hrun, hlen, hregs, hrsps⟩ := runSteps_of_words_then_est ws
    (s := { s with cmds := ws ++ [encode .est], rsps := s.rsps ++ [estResponse s.regs] }) hrst rfl
  rw [foldl_regsAfter_of_est_or_rsvd hws] at hregs
  refine ⟨t, estResponse s.regs, mid, (runSteps_succ_of_step hstep).trans hrun, ?_, hlen, hregs⟩
  rw [hrsps, hregs, List.append_assoc, List.append_assoc, List.append_assoc]

/-- Settles O39: bounds of the terms give bounds of the sum, and equal registers its extreme values. -/
theorem countAndSumRanges : Obligations.CountAndSumRanges := by
  refine ⟨fun r => ⟨toNat_zeroCount_le r, toNat_zeroCount_eq_m_iff r⟩, fun r hr => ?_, fun r => ?_, fun r => ?_,
    fun r hr => ?_⟩
  · exact ⟨two_pow_le_toNat_harmonicSum (by omega) hr, toNat_harmonicSum_le fun i => (hr i).trans (by omega)⟩
  · exact toNat_harmonicSum_of_forall_eq (b := 18#8) (by decide)
  · exact toNat_harmonicSum_of_forall_eq (b := 0#8) (by decide)
  · have hlow := two_pow_le_toNat_harmonicSum le_rfl hr
    exact ⟨hlow, by omega, toNat_zeroCount_mul_le_toNat_harmonicSum hr⟩

/-- Settles O40: the other registers are the `M - 1` zeros, whichever bucket is the one above 0. -/
theorem oneNonzeroRegisterPair : Obligations.OneNonzeroRegisterPair := by
  intro r i hothers hpos hle
  have hnonzero : ∀ j, j ∈ ({i} : Finset Bucket) ↔ r.read j ≠ 0#8 := fun j => by
    rw [Finset.mem_singleton]
    refine ⟨fun hj hzero => ?_, fun hne => by_contra fun hj => hne (hothers j hj)⟩
    simp [← hj, hzero] at hpos
  have hcount := toNat_zeroCount_add_card hnonzero
  rw [Finset.card_singleton] at hcount
  exact ⟨by omega, toNat_harmonicSum_of_others_zero hothers hle⟩

end Sys2Proof.Machine
end

