-- ==== Sys2Proof/Proofs/BinarySum.lean ====
section
/-! The binary64 sum of the terms `2^(-reg[i])`: every partial sum is a whole number of `2^(-32)` below `2^53`, so that no
addition rounds (R144). -/

namespace Sys2Proof.Machine.Binary64

/-! ### The operations on finite values -/

theorem isNaN_eq_false_of_isFinite {d : F64} (h : isFinite d = true) : isNaN d = false := by
  have hexp : expField d ≠ 2047 := of_decide_eq_true h
  simp [isNaN, hexp]

theorem isInf_eq_false_of_isFinite {d : F64} (h : isFinite d = true) : isInf d = false := by
  have hexp : expField d ≠ 2047 := of_decide_eq_true h
  simp [isInf, hexp]

/-- R15: the sum of two finite values is the exact sum, rounded once. -/
theorem fadd_of_isFinite {a b : F64} (ha : isFinite a = true) (hb : isFinite b = true) :
    fadd a b = ofSignedUnits (sign a && sign b) (signedUnits a + signedUnits b) := by
  simp [fadd, isNaN_eq_false_of_isFinite, isInf_eq_false_of_isFinite, ha, hb]

/-- R15: the quotient of two finite values is the exact quotient, rounded once, where the divisor is not 0. -/
theorem fdiv_of_isFinite {a b : F64} (ha : isFinite a = true) (hb : isFinite b = true) (hne : units b ≠ 0) :
    fdiv a b = pack (sign a != sign b) (roundUnits (units a * oneUnits) (units b)) := by
  simp [fdiv, isNaN_eq_false_of_isFinite, isInf_eq_false_of_isFinite, ha, hb, hne]

theorem signedUnits_of_sign_eq_false {d : F64} (h : sign d = false) : signedUnits d = units d := by
  simp [signedUnits, h]

theorem ofSignedUnits_natCast (n : Nat) : ofSignedUnits false n = pack false (roundUnits n 1) := by
  have hnonneg : ¬ (n : Int) < 0 := by omega
  simp [ofSignedUnits, hnonneg]

/-! ### Rounding a quotient with a common factor -/

theorem roundDiv_mul_right (n d : Nat) {c : Nat} (hc : 0 < c) : roundDiv (n * c) (d * c) = roundDiv n d := by
  simp only [roundDiv, Nat.mul_mod_mul_right, Nat.mul_div_mul_right n d hc, ← Nat.mul_assoc, Nat.mul_lt_mul_right hc]

theorem roundUnits_mul_right (n d : Nat) {c : Nat} (hc : 0 < c) : roundUnits (n * c) (d * c) = roundUnits n d := by
  simp only [roundUnits, Nat.mul_div_mul_right n d hc, Nat.mul_right_comm d c, roundDiv_mul_right _ _ hc]

/-! ### Whole numbers of `2^(j - 1074)` -/

/-- The binary64 of `n` units of `2^(j - 1074)`, which is not rounded where `n` is below `2^53` (R144). -/
def ofScaled (j n : Nat) : F64 := pack false (roundUnits (n * 2 ^ j) 1)

/-- What `ofScaled` is below `2^53`: a finite value, not negative, of exactly `n * 2^j` units. -/
theorem ofScaled_exact {j n : Nat} (hj : j ≤ 1074) (hn : n < 2 ^ 53) :
    isFinite (ofScaled j n) = true ∧ sign (ofScaled j n) = false ∧ units (ofScaled j n) = n * 2 ^ j := by
  have hlog : (n * 2 ^ j).log2 < 2098 := by
    rcases Nat.eq_zero_or_pos n with rfl | hpos
    · simp
    · rw [Nat.log2_lt (by positivity)]
      calc n * 2 ^ j < 2 ^ 53 * 2 ^ j := Nat.mul_lt_mul_of_pos_right hn (Nat.two_pow_pos j)
        _ = 2 ^ (53 + j) := (pow_add 2 53 j).symm
        _ ≤ 2 ^ 2098 := Nat.pow_le_pow_right (by norm_num) (by omega)
  obtain ⟨hunits, hlt⟩ := units_roundUnits_exact false Nat.one_pos (Nat.mul_one (n * 2 ^ j)).symm ⟨j, n, rfl, hn⟩ hlog
  exact ⟨isFinite_pack false hlt, sign_pack false hlt.le, hunits⟩

/-- R144: where the sum is below `2^53`, the addition does not round. -/
theorem fadd_ofScaled {j a b : Nat} (hj : j ≤ 1074) (h : a + b < 2 ^ 53) :
    fadd (ofScaled j a) (ofScaled j b) = ofScaled j (a + b) := by
  obtain ⟨hfa, hsa, hua⟩ := ofScaled_exact hj (show a < 2 ^ 53 by omega)
  obtain ⟨hfb, hsb, hub⟩ := ofScaled_exact hj (show b < 2 ^ 53 by omega)
  rw [fadd_of_isFinite hfa hfb, hsa, hsb, Bool.and_false, signedUnits_of_sign_eq_false hsa,
    signedUnits_of_sign_eq_false hsb, hua, hub, ← Nat.cast_add, ← Nat.add_mul, ofSignedUnits_natCast, ofScaled]

/-- An integer as binary64. -/
theorem f64_eq_ofScaled (n : Nat) : f64 n = ofScaled 1074 n := rfl

/-- R144: an integer below `2^53` divided by a power of 2 up to `2^32` is a whole number of `2^(-32)`, not rounded. -/
theorem fdiv_f64_two_pow {n k : Nat} (hn : n < 2 ^ 53) (hk : k ≤ 32) :
    fdiv (f64 n) (f64 (2 ^ k)) = ofScaled 1042 (n * 2 ^ (32 - k)) := by
  obtain ⟨hfn, hsn, hun⟩ := ofScaled_exact le_rfl hn
  have hlt : 2 ^ k < 2 ^ 53 := Nat.pow_lt_pow_right (by norm_num) (by omega)
  obtain ⟨hfk, hsk, huk⟩ := ofScaled_exact le_rfl hlt
  have hpos : 0 < 2 ^ k * 2 ^ 1074 := by positivity
  have hpow : 2 ^ (32 - k) * 2 ^ 1042 * 2 ^ k = oneUnits := by
    rw [← pow_add, ← pow_add, oneUnits]
    congr 1
    omega
  have hexact : n * 2 ^ 1074 * oneUnits = n * 2 ^ (32 - k) * 2 ^ 1042 * (2 ^ k * 2 ^ 1074) := by
    rw [← hpow]
    generalize 2 ^ 1074 = u, 2 ^ 1042 = v
    ring
  have hround := roundUnits_mul_right (n * 2 ^ (32 - k) * 2 ^ 1042) 1 hpos
  rw [Nat.one_mul, ← hexact] at hround
  rw [f64_eq_ofScaled, f64_eq_ofScaled, fdiv_of_isFinite hfn hfk (huk ▸ hpos.ne'), hsn, hsk, hun, huk, hround,
    bne_self_eq_false, ofScaled]

theorem toRat_ofScaled {j n : Nat} (hj : j ≤ 1074) (hn : n < 2 ^ 53) :
    toRat (ofScaled j n) = (n : ℚ) / 2 ^ (1074 - j) := by
  obtain ⟨-, hsign, hunits⟩ := ofScaled_exact hj hn
  have hpow : (2 : ℚ) ^ 1074 = 2 ^ (1074 - j) * 2 ^ j := (pow_sub_mul_pow 2 hj).symm
  rw [toRat, signedUnits_of_sign_eq_false hsign, hunits, hpow]
  push_cast
  exact mul_div_mul_right _ _ (by positivity)

end Sys2Proof.Machine.Binary64

namespace Sys2Proof.Machine

/-- The document's sum of the terms `2^(-b)` in binary64, from `acc` on, register by register (R144). -/
def binarySum (acc : F64) (bs : List Byte) : F64 :=
  bs.foldl (fun acc b => Binary64.fadd acc (Binary64.fdiv Binary64.one (Binary64.f64 (2 ^ b.toNat)))) acc

theorem one_eq_f64 : Binary64.one = Binary64.f64 1 := by decide +kernel

theorem zero_eq_ofScaled : Binary64.zero = Binary64.ofScaled 1042 0 := by decide +kernel

/-- R144: where the exact sum is below `2^53`, the binary64 sum is that sum. -/
theorem binarySum_ofScaled (bs : List Byte) (acc : Nat) (hbs : ∀ b ∈ bs, b.toNat ≤ 32)
    (hsum : acc + (bs.map harmonicTerm).sum < 2 ^ 53) :
    binarySum (Binary64.ofScaled 1042 acc) bs = Binary64.ofScaled 1042 (acc + (bs.map harmonicTerm).sum) := by
  induction bs generalizing acc with
  | nil => rfl
  | cons b bs ih =>
    obtain ⟨hb, hbs⟩ := List.forall_mem_cons.mp hbs
    rw [List.map_cons, List.sum_cons, ← Nat.add_assoc] at hsum ⊢
    have hterm : Binary64.fdiv Binary64.one (Binary64.f64 (2 ^ b.toNat)) = Binary64.ofScaled 1042 (harmonicTerm b) := by
      rw [one_eq_f64, Binary64.fdiv_f64_two_pow (by norm_num) hb, Nat.one_mul, harmonicTerm]
    rw [binarySum, List.foldl_cons, hterm, Binary64.fadd_ofScaled (by omega) (by omega)]
    exact ih _ hbs hsum

/-- R68, R144: the fixed-point sum divided by `2^32` in binary64. -/
theorem zValue_eq_ofScaled (z : BitVec 48) : zValue z = Binary64.ofScaled 1042 z.toNat := by
  rw [zValue, Binary64.fdiv_f64_two_pow (by omega) le_rfl, Nat.sub_self, pow_zero, Nat.mul_one]

/-- R142: the terms add up to `Z_fx` in every order of the registers. -/
theorem sum_harmonicTerm_of_perm {r : Regs} (hr : ∀ i : Bucket, (r.read i).toNat ≤ 32) {order : List Byte}
    (h : order.Perm ((List.range 32768).map fun k => r.read (BitVec.ofNat 15 k))) :
    (order.map harmonicTerm).sum = r.harmonicSum.toNat := by
  rw [(h.map harmonicTerm).sum_eq, List.map_map, toNat_harmonicSum hr]
  rfl

/-- Settles O42: both sides are the same whole number of `2^(-32)`, which the additions reach without rounding. -/
theorem binarySumEqualsFixedPointSum : Obligations.BinarySumEqualsFixedPointSum := by
  intro r order hr hperm
  have hz : r.harmonicSum.toNat < 2 ^ 53 := by omega
  have hsum := sum_harmonicTerm_of_perm hr hperm
  have horder : ∀ b ∈ order, b.toNat ≤ 32 := fun b hb => by
    obtain ⟨k, -, rfl⟩ := List.mem_map.mp (hperm.mem_iff.mp hb)
    exact hr _
  have hbinary := binarySum_ofScaled order 0 horder (by rwa [Nat.zero_add, hsum])
  rw [Nat.zero_add, hsum, ← zValue_eq_ofScaled, ← zero_eq_ofScaled] at hbinary
  exact ⟨hbinary, by rw [zValue_eq_ofScaled, Binary64.toRat_ofScaled (by omega) hz]⟩

end Sys2Proof.Machine
end

