-- ==== Sys2Proof/Proofs/Binary64Order.lean ====
section
/-! The order of binary64 values. Rounding keeps the order of the exact quotients, and the bit patterns of the finite values of
sign 0 are in the order of their values, so a quotient falls as its divisor grows (R165). With this stand the product by a power
of 2, which is exact, and truncation, which is the floor. -/

namespace Sys2Proof.Machine.Binary64

/-! ### Rounding keeps the order of the exact quotients -/

theorem roundDiv_le_of_mul_le {n d n' d' : Nat} (hd : 0 < d) (hd' : 0 < d') (h : n * d' ≤ n' * d) :
    roundDiv n d ≤ roundDiv n' d' := by
  rw [← roundDiv_mul_right n d hd', ← roundDiv_mul_right n' d' hd, Nat.mul_comm d' d]
  exact roundDiv_mono (Nat.mul_pos hd hd') h

theorem div_le_div_of_mul_le {n d n' d' : Nat} (hd : 0 < d) (hd' : 0 < d') (h : n * d' ≤ n' * d) : n / d ≤ n' / d' := by
  rw [← Nat.mul_div_mul_right n d hd', ← Nat.mul_div_mul_right n' d' hd, Nat.mul_comm d' d]
  exact Nat.div_le_div_right h

/-- R165: a quotient that is not larger is not rounded to a larger value. With one last place the significands are compared;
a larger last place comes with a full significand. -/
theorem roundUnits_le_of_mul_le {n d n' d' : Nat} (hd : 0 < d) (hd' : 0 < d') (h : n * d' ≤ n' * d) :
    roundUnits n d ≤ roundUnits n' d' := by
  obtain ⟨k, m, hround, hm, hm_le, -, hk⟩ := roundUnits_spec n hd
  obtain ⟨k', m', hround', hm', -, hm'_full, hk'⟩ := roundUnits_spec n' hd'
  have hk_le : k ≤ k' := by
    rw [hk, hk', Nat.log2_eq_log_two, Nat.log2_eq_log_two]
    exact Nat.sub_le_sub_right (Nat.log_mono_right (div_le_div_of_mul_le hd hd' h)) 52
  rw [hround, hround']
  refine min_le_min_right _ ?_
  rcases hk_le.eq_or_lt with rfl | hk_lt
  · have hm_le_m' : m ≤ m' := by
      rw [hm, hm']
      refine roundDiv_le_of_mul_le (by positivity) (by positivity) ?_
      rw [← Nat.mul_assoc, ← Nat.mul_assoc]
      exact Nat.mul_le_mul_right _ h
    omega
  · omega

/-! ### Values that are not negative -/

theorem signedUnits_eq_units_of_toRat_nonneg {d : F64} (h : 0 ≤ toRat d) : signedUnits d = units d := by
  have hsigned : 0 ≤ signedUnits d := by
    by_contra hneg
    have hcast : (signedUnits d : ℚ) < 0 := by exact_mod_cast not_le.mp hneg
    exact absurd h (div_neg_of_neg_of_pos hcast (by positivity)).not_ge
  rw [signedUnits] at hsigned ⊢
  split at hsigned
  · rw [if_pos ‹_›]
    omega
  · rw [if_neg ‹_›]

theorem toRat_eq_of_nonneg {d : F64} (h : 0 ≤ toRat d) : toRat d = (units d : ℚ) / 2 ^ 1074 := by
  rw [toRat, signedUnits_eq_units_of_toRat_nonneg h, Int.cast_natCast]

theorem units_lt_of_toRat_lt {d : F64} {j : Nat} (h : 0 ≤ toRat d) (hlt : toRat d < 2 ^ j) : units d < 2 ^ (j + 1074) := by
  rw [toRat_eq_of_nonneg h, div_lt_iff₀ (by positivity), ← pow_add] at hlt
  exact_mod_cast hlt

theorem toRat_lt_of_units_lt {d : F64} {j : Nat} (h : 0 ≤ toRat d) (hlt : units d < 2 ^ (j + 1074)) : toRat d < 2 ^ j := by
  rw [toRat_eq_of_nonneg h, div_lt_iff₀ (by positivity), ← pow_add]
  exact_mod_cast hlt

/-! ### Finite values of sign 0 -/

/-- A finite value of sign 0. -/
structure IsNonneg (d : F64) : Prop where
  finite : isFinite d = true
  sign : sign d = false

theorem isNonneg_iff_toNat_lt (d : F64) : IsNonneg d ↔ d.toNat < infMagnitude := by
  have hd : d.toNat < 2 ^ 64 := d.isLt
  have hinf : infMagnitude = 2047 * 2 ^ 52 := rfl
  have hfields : IsNonneg d ↔ d.toNat / 2 ^ 52 % 2 ^ 11 ≠ 2047 ∧ d.toNat < 2 ^ 63 := by
    have hsign : sign d = false ↔ 2 * d.toNat < 2 ^ 64 := BitVec.msb_eq_false_iff_two_mul_lt
    refine ⟨fun h => ⟨of_decide_eq_true h.finite, ?_⟩, fun ⟨hexp, hlt⟩ => ⟨decide_eq_true hexp, hsign.mpr ?_⟩⟩
    · have hlt := hsign.mp h.sign
      omega
    · omega
  rw [hfields]
  omega

theorem IsNonneg.of_toNat_le {d d' : F64} (hd' : IsNonneg d') (h : d.toNat ≤ d'.toNat) : IsNonneg d :=
  (isNonneg_iff_toNat_lt d).mpr (h.trans_lt ((isNonneg_iff_toNat_lt d').mp hd'))

theorem isNonneg_ofScaled {j n : Nat} (hj : j ≤ 1074) (hn : n < 2 ^ 53) : IsNonneg (ofScaled j n) :=
  have ⟨hfinite, hsign, _⟩ := ofScaled_exact hj hn
  ⟨hfinite, hsign⟩

theorem isNonneg_f64 {n : Nat} (hn : n < 2 ^ 53) : IsNonneg (f64 n) := isNonneg_ofScaled le_rfl hn

/-- The fields of bits 62:0 in one number: values with one exponent compare by their fractions, and a larger exponent comes
with a larger value. -/
theorem IsNonneg.units_le {d d' : F64} (hd' : IsNonneg d') (h : d.toNat ≤ d'.toNat) : units d ≤ units d' := by
  have hlt' : d'.toNat < 2047 * 2 ^ 52 := (isNonneg_iff_toNat_lt d').mp hd'
  have hexp : expField d = d.toNat / 2 ^ 52 := Nat.mod_eq_of_lt (by omega)
  have hexp' : expField d' = d'.toNat / 2 ^ 52 := Nat.mod_eq_of_lt (by omega)
  have hfrac : fraction d < 2 ^ 52 := Nat.mod_lt _ (by norm_num)
  have hexp_le : expField d ≤ expField d' := by omega
  rw [units, units]
  rcases hexp_le.eq_or_lt with heq | hlt
  · have hfrac_le : fraction d ≤ fraction d' := by
      unfold fraction
      omega
    rw [heq]
    split
    · exact hfrac_le
    · exact Nat.mul_le_mul_right _ (by omega)
  · rw [if_neg (show expField d' ≠ 0 by omega)]
    refine le_trans ?_ (Nat.mul_le_mul_right _ (Nat.le_add_right (2 ^ 52) (fraction d')))
    split
    · exact hfrac.le.trans (Nat.le_mul_of_pos_right _ (Nat.two_pow_pos _))
    · calc (2 ^ 52 + fraction d) * 2 ^ (expField d - 1)
          ≤ 2 ^ 53 * 2 ^ (expField d - 1) := Nat.mul_le_mul_right _ (by omega)
        _ = 2 ^ 52 * 2 ^ (expField d - 1 + 1) := by rw [pow_succ']; ring
        _ ≤ 2 ^ 52 * 2 ^ (expField d' - 1) := Nat.mul_le_mul_left _ (Nat.pow_le_pow_right (by norm_num) (by omega))

theorem IsNonneg.toRat_nonneg {d : F64} (hd : IsNonneg d) : 0 ≤ toRat d := by
  rw [toRat, signedUnits_of_sign_eq_false hd.sign, Int.cast_natCast]
  positivity

theorem IsNonneg.toRat_le {d d' : F64} (hd' : IsNonneg d') (h : d.toNat ≤ d'.toNat) : toRat d ≤ toRat d' := by
  rw [toRat_eq_of_nonneg hd'.toRat_nonneg, toRat_eq_of_nonneg (hd'.of_toNat_le h).toRat_nonneg]
  exact div_le_div_of_nonneg_right (Nat.cast_le.mpr (hd'.units_le h)) (by positivity)

theorem toRat_f64 {n : Nat} (hn : n < 2 ^ 53) : toRat (f64 n) = n := by
  rw [f64_eq_ofScaled, toRat_ofScaled le_rfl hn, Nat.sub_self, pow_zero, div_one]

/-! ### A quotient falls as its divisor grows -/

theorem toNat_pack_false {magnitude : Nat} (h : magnitude ≤ infMagnitude) : (pack false magnitude).toNat = magnitude := by
  have hinf : magnitude ≤ 2047 * 2 ^ 52 := h
  simp only [pack, BitVec.toNat_ofNat, Bool.false_eq_true, if_false]
  omega

theorem toNat_fdiv {a b : F64} (ha : IsNonneg a) (hb : IsNonneg b) (hne : units b ≠ 0) :
    (fdiv a b).toNat = roundUnits (units a * oneUnits) (units b) := by
  rw [fdiv_of_isFinite ha.finite hb.finite hne, ha.sign, hb.sign, bne_self_eq_false]
  exact toNat_pack_false (min_le_right _ _)

theorem toNat_fdiv_antitone {a b b' : F64} (ha : IsNonneg a) (hb : IsNonneg b) (hb' : IsNonneg b') (hne : units b ≠ 0)
    (h : units b ≤ units b') : (fdiv a b').toNat ≤ (fdiv a b).toNat := by
  have hpos : 0 < units b := Nat.pos_of_ne_zero hne
  rw [toNat_fdiv ha hb hne, toNat_fdiv ha hb' (by omega)]
  exact roundUnits_le_of_mul_le (by omega) hpos (Nat.mul_le_mul_left _ h)

theorem units_ofScaled_ne_zero {j n : Nat} (hj : j ≤ 1074) (hpos : 0 < n) (hn : n < 2 ^ 53) : units (ofScaled j n) ≠ 0 := by
  obtain ⟨-, -, hunits⟩ := ofScaled_exact hj hn
  rw [hunits]
  positivity

theorem toNat_fdiv_ofScaled_antitone {a : F64} (ha : IsNonneg a) {j n n' : Nat} (hj : j ≤ 1074) (hpos : 0 < n)
    (hle : n ≤ n') (hn' : n' < 2 ^ 53) : (fdiv a (ofScaled j n')).toNat ≤ (fdiv a (ofScaled j n)).toNat := by
  have hn : n < 2 ^ 53 := hle.trans_lt hn'
  refine toNat_fdiv_antitone ha (isNonneg_ofScaled hj hn) (isNonneg_ofScaled hj hn')
    (units_ofScaled_ne_zero hj hpos hn) ?_
  obtain ⟨-, -, hunits⟩ := ofScaled_exact hj hn
  obtain ⟨-, -, hunits'⟩ := ofScaled_exact hj hn'
  rw [hunits, hunits']
  exact Nat.mul_le_mul_right _ hle

/-! ### Multiplication by a power of 2 -/

/-- A finite value has at most 53 significant bits. -/
theorem units_eq_mul_two_pow (d : F64) : ∃ k m, units d = m * 2 ^ k ∧ m < 2 ^ 53 := by
  have hfrac : fraction d < 2 ^ 52 := Nat.mod_lt _ (by norm_num)
  by_cases hexp : expField d = 0
  · exact ⟨0, fraction d, by rw [units, if_pos hexp, pow_zero, Nat.mul_one], by omega⟩
  · exact ⟨expField d - 1, 2 ^ 52 + fraction d, by rw [units, if_neg hexp], by omega⟩

/-- R15: the product of two finite values is the exact product, rounded once. -/
theorem fmul_of_isFinite {a b : F64} (ha : isFinite a = true) (hb : isFinite b = true) :
    fmul a b = pack (sign a != sign b) (roundUnits (units a * units b) oneUnits) := by
  simp [fmul, isNaN_eq_false_of_isFinite, isInf_eq_false_of_isFinite, ha, hb]

theorem oneUnits_pos : 0 < oneUnits := by
  rw [oneUnits]
  positivity

/-- R165: where nothing overflows, the product by a power of 2 is not rounded. -/
theorem fmul_f64_two_pow {j k : Nat} (hj : j ≤ 2045) (hk : k < 53) {d : F64} (hd : isFinite d = true)
    (hsmall : units d < 2 ^ j) :
    isFinite (fmul (f64 (2 ^ k)) d) = true ∧ toRat (fmul (f64 (2 ^ k)) d) = 2 ^ k * toRat d := by
  obtain ⟨hfinite, hsign, hunits⟩ := ofScaled_exact le_rfl (Nat.pow_lt_pow_right (show 1 < 2 by norm_num) hk)
  rw [← f64_eq_ofScaled] at hfinite hsign hunits
  have hbits : ∃ i m, 2 ^ k * units d = m * 2 ^ i ∧ m < 2 ^ 53 := by
    obtain ⟨i, m, hm, hm_lt⟩ := units_eq_mul_two_pow d
    exact ⟨k + i, m, by rw [hm, pow_add]; ring, hm_lt⟩
  have hlog : (2 ^ k * units d).log2 < 2098 := by
    by_cases hzero : 2 ^ k * units d = 0
    · simp [hzero]
    · rw [Nat.log2_lt hzero]
      calc 2 ^ k * units d < 2 ^ k * 2 ^ j := Nat.mul_lt_mul_of_pos_left hsmall (Nat.two_pow_pos k)
        _ = 2 ^ (k + j) := (pow_add 2 k j).symm
        _ ≤ 2 ^ 2098 := Nat.pow_le_pow_right (by norm_num) (by omega)
  have hexact : 2 ^ k * 2 ^ 1074 * units d = 2 ^ k * units d * oneUnits := by
    rw [oneUnits]
    exact Nat.mul_right_comm _ _ _
  obtain ⟨hproduct, hbound⟩ := units_roundUnits_exact (sign d) oneUnits_pos hexact hbits hlog
  rw [fmul_of_isFinite hfinite hd, hsign, hunits, Bool.false_bne]
  refine ⟨isFinite_pack _ hbound, ?_⟩
  rw [toRat, toRat, signedUnits, signedUnits, sign_pack _ hbound.le, hproduct]
  generalize (2 : ℚ) ^ 1074 = u
  split <;> push_cast <;> ring

/-! ### Truncation -/

/-- R15, R164: `trunc` is the floor of a finite value that is not negative and fits 64 bits. -0.0 is such a value. -/
theorem toNat_trunc {d : F64} (hd : isFinite d = true) (hnonneg : 0 ≤ toRat d) (hlt : toRat d < 2 ^ 64) :
    (trunc d).toNat = ⌊toRat d⌋₊ := by
  have hfloor : ⌊toRat d⌋₊ = units d / oneUnits := by
    have hcast : (2 : ℚ) ^ 1074 = (oneUnits : Nat) := (Nat.cast_pow 2 1074).symm
    rw [toRat_eq_of_nonneg hnonneg, hcast, Nat.floor_div_eq_div]
  have hfits : units d / oneUnits < 2 ^ 64 := by
    rw [Nat.div_lt_iff_lt_mul oneUnits_pos, oneUnits, ← pow_add]
    exact units_lt_of_toRat_lt hnonneg hlt
  have hzero : sign d = false ∨ units d / oneUnits = 0 := by
    have hunits := signedUnits_eq_units_of_toRat_nonneg hnonneg
    rw [signedUnits] at hunits
    split at hunits
    · exact .inr (by rw [show units d = 0 by omega, Nat.zero_div])
    · exact .inl (Bool.eq_false_of_not_eq_true ‹_›)
  have hcond : (isFinite d && decide (units d / oneUnits < 2 ^ 64) &&
      (!sign d || decide (units d / oneUnits = 0))) = true := by
    rw [hd, decide_eq_true hfits]
    rcases hzero with hzero | hzero <;> simp [hzero]
  rw [trunc, if_pos hcond, hfloor, BitVec.toNat_ofNat, Nat.mod_eq_of_lt hfits]

end Sys2Proof.Machine.Binary64
end

