-- ==== Sys2Proof/Proofs/Finalizer.lean ====
section
/-! The finalizer. The quotient of each branch falls as its divisor grows, so its range follows from the ends of the divisor's
range, and the range of the result from that (R167). -/

namespace Sys2Proof.Machine

/-! ### The branches of `FINAL` -/

theorem finalWith_of_zeroCount_ne_zero (ln : F64 → F64) {v : BitVec 16} (hv : v ≠ 0) (z : BitVec 48) :
    finalWith ln v z = Binary64.trunc (linearCount ln v) := if_neg hv

theorem finalWith_of_zeroCount_eq_zero (ln : F64 → F64) (z : BitVec 48) :
    finalWith ln 0 z = Binary64.trunc (rawEstimate z) := if_pos rfl

/-! ### The raw branch -/

/-- R167: `n = alpha * M^2`. -/
theorem fmul_alpha_mF64_sq : Binary64.fmul alpha (Binary64.fmul mF64 mF64) = 0x41C714B1EDDC9938 := by decide +kernel

theorem rawEstimate_eq_fdiv (z : BitVec 48) :
    rawEstimate z = Binary64.fdiv 0x41C714B1EDDC9938 (Binary64.ofScaled 1042 z.toNat) := by
  rw [rawEstimate, fmul_alpha_mF64_sq, zValue_eq_ofScaled]

theorem toNat_rawEstimate_antitone {z z' : BitVec 48} (hpos : 0 < z.toNat) (hle : z.toNat ≤ z'.toNat) :
    (rawEstimate z').toNat ≤ (rawEstimate z).toNat := by
  have hn : Binary64.IsNonneg 0x41C714B1EDDC9938 := ⟨by decide, by decide⟩
  rw [rawEstimate_eq_fdiv, rawEstimate_eq_fdiv]
  exact Binary64.toNat_fdiv_ofScaled_antitone hn (by norm_num) hpos hle (by omega)

/-- R168: the raw estimate of a sum above 0 is finite, of sign 0 and fits 64 bits, because that of the sum 1 is and does. -/
theorem rawEstimate_isNonneg_and_lt {z : BitVec 48} (hpos : 0 < z.toNat) :
    Binary64.IsNonneg (rawEstimate z) ∧ Binary64.toRat (rawEstimate z) < 2 ^ 64 := by
  have hle : (rawEstimate z).toNat ≤ (rawEstimate 1).toNat := toNat_rawEstimate_antitone Nat.one_pos hpos
  have hone : Binary64.IsNonneg (rawEstimate 1) := ⟨by decide +kernel, by decide +kernel⟩
  have hunits : Binary64.units (rawEstimate 1) < 2 ^ (64 + 1074) := by decide +kernel
  exact ⟨hone.of_toNat_le hle,
    (hone.toRat_le hle).trans_lt (Binary64.toRat_lt_of_units_lt hone.toRat_nonneg hunits)⟩

/-- R164: on the raw branch the result is the floor of the raw estimate. -/
theorem toNat_finalWith_zero (ln : F64 → F64) {z : BitVec 48} (hpos : 0 < z.toNat) :
    (finalWith ln 0 z).toNat = ⌊Binary64.toRat (rawEstimate z)⌋₊ := by
  obtain ⟨hraw, hlt⟩ := rawEstimate_isNonneg_and_lt hpos
  rw [finalWith_of_zeroCount_eq_zero, Binary64.toNat_trunc hraw.finite hraw.toRat_nonneg hlt]

/-- R167: on the raw branch a larger sum never gives a larger result. -/
theorem toNat_finalWith_zero_antitone (ln : F64 → F64) {z z' : BitVec 48} (hpos : 0 < z.toNat) (hle : z.toNat ≤ z'.toNat) :
    (finalWith ln 0 z').toNat ≤ (finalWith ln 0 z).toNat := by
  obtain ⟨hraw, -⟩ := rawEstimate_isNonneg_and_lt hpos
  rw [toNat_finalWith_zero ln hpos, toNat_finalWith_zero ln (hpos.trans_le hle)]
  exact Nat.floor_mono (hraw.toRat_le (toNat_rawEstimate_antitone hpos hle))

/-- R167: the result at the smallest sum of a state without zero registers, `Z = 0.125`. -/
theorem trunc_rawEstimate_two_pow_29 : Binary64.trunc (rawEstimate 0x000020000000) = 6195715805 := by decide +kernel

/-- R167: the result at the largest sum of a state without zero registers, `Z = 16384.0`. -/
theorem trunc_rawEstimate_two_pow_46 : Binary64.trunc (rawEstimate 0x400000000000) = 47269 := by decide +kernel

/-! ### The linear-counting branch -/

theorem mF64_eq_f64 : mF64 = Binary64.f64 (2 ^ 15) := rfl

theorem isNonneg_mF64 : Binary64.IsNonneg mF64 := by
  rw [mF64_eq_f64]
  exact Binary64.isNonneg_f64 (by norm_num)

theorem toRat_mF64 : Binary64.toRat mF64 = 32768 := by
  rw [mF64_eq_f64, Binary64.toRat_f64 (by norm_num)]
  norm_num

theorem toRat_one : Binary64.toRat Binary64.one = 1 := by
  rw [one_eq_f64, Binary64.toRat_f64 (by norm_num), Nat.cast_one]

theorem fdiv_mF64_one : Binary64.fdiv mF64 (Binary64.f64 1) = mF64 := by decide +kernel

/-- R167: `1.0 <= q <= 32768.0` for `1 <= V <= M`. -/
theorem fdiv_mF64_range {n : Nat} (hpos : 1 ≤ n) (hle : n ≤ 32768) :
    Binary64.isFinite (Binary64.fdiv mF64 (Binary64.f64 n)) = true ∧
      1 ≤ Binary64.toRat (Binary64.fdiv mF64 (Binary64.f64 n)) ∧
      Binary64.toRat (Binary64.fdiv mF64 (Binary64.f64 n)) ≤ 32768 := by
  have hm := isNonneg_mF64
  have hupper : (Binary64.fdiv mF64 (Binary64.f64 n)).toNat ≤ mF64.toNat := by
    have h := Binary64.toNat_fdiv_ofScaled_antitone hm le_rfl Nat.one_pos hpos (by omega)
    rwa [← Binary64.f64_eq_ofScaled, ← Binary64.f64_eq_ofScaled, fdiv_mF64_one] at h
  have hlower : Binary64.one.toNat ≤ (Binary64.fdiv mF64 (Binary64.f64 n)).toNat := by
    have h := Binary64.toNat_fdiv_ofScaled_antitone hm le_rfl hpos hle (by norm_num)
    rwa [← Binary64.f64_eq_ofScaled, ← Binary64.f64_eq_ofScaled, fdiv_mF64_self] at h
  have hq := hm.of_toNat_le hupper
  rw [← toRat_one, ← toRat_mF64]
  exact ⟨hq.finite, hq.toRat_le hlower, hm.toRat_le hupper⟩

/-- R164: where the logarithm is finite, not negative and below `2^49`, the result is the floor of `M` times it: the product
is exact. -/
theorem toNat_trunc_fmul_mF64 {l : F64} (hl : Binary64.isFinite l = true) (hnonneg : 0 ≤ Binary64.toRat l)
    (hlt : Binary64.toRat l < 2 ^ 49) :
    (Binary64.trunc (Binary64.fmul mF64 l)).toNat = ⌊32768 * Binary64.toRat l⌋₊ := by
  have hunits := Binary64.units_lt_of_toRat_lt hnonneg hlt
  obtain ⟨hfinite, hexact⟩ := Binary64.fmul_f64_two_pow (k := 15) (by norm_num) (by norm_num) hl hunits
  rw [← mF64_eq_f64] at hfinite hexact
  have hproduct : Binary64.toRat (Binary64.fmul mF64 l) = 32768 * Binary64.toRat l := hexact.trans (by norm_num)
  rw [Binary64.toNat_trunc hfinite (by rw [hproduct]; linarith) (by rw [hproduct]; linarith), hproduct]

/-! ### The statements -/

/-- Settles O46: on the raw branch the result is the floor of a finite value of sign 0. -/
theorem rawResultIsTheFloor : Obligations.RawResultIsTheFloor := by
  intro ln z hz
  have hpos : 0 < z.toNat := Nat.pos_of_ne_zero fun h => hz (BitVec.eq_of_toNat_eq h)
  obtain ⟨hraw, -⟩ := rawEstimate_isNonneg_and_lt hpos
  rw [toNat_finalWith_zero ln hpos]
  exact ⟨hraw.finite, hraw.sign, Nat.floor_le hraw.toRat_nonneg, Nat.lt_floor_add_one _⟩

/-- Settles O47: the result falls as the sum grows, so the ends of the sums give the ends of the results. -/
theorem rawResultRange : Obligations.RawResultRange := by
  refine ⟨fun ln z hlo hhi => ⟨?_, ?_⟩, fun ln _ _ => toNat_finalWith_zero_antitone ln⟩
  · have h := toNat_finalWith_zero_antitone ln (z' := 0x400000000000) (by omega) hhi
    rwa [finalWith_of_zeroCount_eq_zero ln 0x400000000000, trunc_rawEstimate_two_pow_46] at h
  · have h := toNat_finalWith_zero_antitone ln (z := 0x000020000000) (by decide) hlo
    rwa [finalWith_of_zeroCount_eq_zero ln 0x000020000000, trunc_rawEstimate_two_pow_29] at h

/-- Settles O48: (P3) bounds the logarithm of `q <= 32768.0` by that of 32768.0, and `32768 * 10.39721 < 340696`. -/
theorem linearCountRange : Obligations.LinearCountRange := by
  intro ln hP2 hP3 hbound v z hpos hle
  have hv : v ≠ 0 := by
    rintro rfl
    exact absurd hpos (by decide)
  have hm := isNonneg_mF64.finite
  obtain ⟨hq, hq_lower, hq_upper⟩ := fdiv_mF64_range hpos hle
  obtain ⟨hln_m, -⟩ := hP2 mF64 hm (by rw [toRat_mF64]; norm_num)
  obtain ⟨hln, hln_nonneg⟩ := hP2 _ hq hq_lower
  have hln_le : Binary64.toRat (ln (Binary64.fdiv mF64 (Binary64.f64 v.toNat))) ≤ 1039721 / 100000 :=
    (hP3 _ mF64 hq hm hq_lower (hq_upper.trans_eq toRat_mF64.symm) toRat_mF64.le hln hln_m).trans hbound
  rw [finalWith_of_zeroCount_ne_zero ln hv, linearCount, toNat_trunc_fmul_mF64 hln hln_nonneg (by linarith),
    ← Nat.lt_succ_iff, Nat.floor_lt (by linarith)]
  push_cast
  linarith

/-- Settles O43: the response of `EST` is the pair of the estimate. -/
theorem estimateIsFinalAfterEst : Obligations.EstimateIsFinalAfterEst := fun s =>
  ⟨_, _, exec_est s, s.respond_rsps _, rfl⟩

/-- Settles O44, a branch at a time. -/
theorem finalBranchesOnZeroCountAlone : Obligations.FinalBranchesOnZeroCountAlone := by
  refine ⟨fun ln _ z hv => finalWith_of_zeroCount_ne_zero ln hv z, fun ln ln' z => ?_, fdiv_mF64_self, fmul_mF64_zero,
    fun _ z hln => finalWith_of_zeroCount_eq_m hln z⟩
  rw [finalWith_of_zeroCount_eq_zero, finalWith_of_zeroCount_eq_zero]

/-- Settles O45: each constant is evaluated from its operands. -/
theorem alphaBitPatterns : Obligations.AlphaBitPatterns :=
  ⟨by decide +kernel, by decide +kernel, by decide +kernel, fmul_alpha_mF64_sq⟩

end Sys2Proof.Machine
end

