-- ==== Sys2Proof/Proofs/Exceptions.lean ====
section
/-! The one exception: `err = 1` answers the opcode 11 and no other (R180), an illegal command is nothing but its response
(R187), and no step stops the block (R182). -/

namespace Sys2Proof.Machine

/-! ### The response of a command -/

/-- What a command answers over the array `r` (R121, R126, R141, R180). -/
def answerTo (r : Regs) : Instr → Response
  | .clear => Response.done
  | .add _ => Response.done
  | .est => estResponse r
  | .rsvd => Response.illegal

/-- A command is its effect on the array and its response; the array alone determines both. -/
theorem exec_eq_regsAfter_answerTo (i : Instr) (s : State) :
    exec i s = .next { s with regs := regsAfter s.regs i, rsps := s.rsps ++ [answerTo s.regs i] } := by
  cases i with
  | clear => exact exec_clear s
  | add x => exact exec_add x s
  | est => exact exec_est s
  | rsvd => exact exec_rsvd s

/-- R180: the reserved command alone raises `IllegalCommand`. -/
theorem answerTo_err_eq_one_iff (r : Regs) (i : Instr) : (answerTo r i).err = 1 ↔ i = .rsvd := by
  cases i with
  | clear => simp [answerTo, Response.done, errNone]
  | add x => simp [answerTo, Response.done, errNone]
  | est => simp [answerTo, estResponse, errNone]
  | rsvd => simp [answerTo, Response.illegal, errIllegalCommand]

/-- R62, R73: the opcode 11 alone decodes to the reserved command. -/
theorem decode_eq_rsvd_iff (w : CmdWord) : decode w = .rsvd ↔ opField w = 0b11#2 := by
  refine ⟨fun h => ?_, decode_of_opField_rsvd⟩
  obtain ⟨hop, -⟩ := op_operand_decode w
  rw [← hop, h]
  rfl

/-! ### The responses of a stream -/

/-- What commands answer one after the other, from the array `r` on. -/
def answersTo : Regs → List Instr → List Response
  | _, [] => []
  | r, i :: is => answerTo r i :: answersTo (regsAfter r i) is

@[simp] theorem length_answersTo (r : Regs) (is : List Instr) : (answersTo r is).length = is.length := by
  induction is generalizing r with
  | nil => rfl
  | cons i is ih => exact congrArg (· + 1) (ih _)

theorem answersTo_append (r : Regs) (is js : List Instr) :
    answersTo r (is ++ js) = answersTo r is ++ answersTo (is.foldl regsAfter r) js := by
  induction is generalizing r with
  | nil => rfl
  | cons i is ih => exact congrArg (answerTo r i :: ·) (ih _)

/-- R16, R212: as many steps as there are words offered run all of them, in every state with `rst` released. -/
theorem runSteps_of_words (ws : List CmdWord) {s : State} (hrst : s.rst = false) (hcmds : s.cmds = ws) :
    runSteps ws.length s = .next { s with
      cmds := [], regs := (ws.map decode).foldl regsAfter s.regs,
      rsps := s.rsps ++ answersTo s.regs (ws.map decode) } := by
  induction ws generalizing s with
  | nil =>
    cases s
    cases hcmds
    simp [runSteps, answersTo]
  | cons w ws ih =>
    have hstep := (step_of_cmds_eq_cons hrst hcmds).trans (exec_eq_regsAfter_answerTo _ _)
    rw [List.length_cons, runSteps_succ_of_step hstep, ih]
    · simp [answersTo]
    · exact hrst
    · rfl

/-! ### The statements -/

/-- Settles O12: the opcode decides the command, and the command the response. -/
theorem reservedOpcodeAnswersIllegalCommand : Obligations.ReservedOpcodeAnswersIllegalCommand :=
  ⟨exec_rsvd, fun w s => ⟨_, answerTo s.regs (decode w), exec_eq_regsAfter_answerTo (decode w) s, rfl,
    (answerTo_err_eq_one_iff s.regs (decode w)).trans (decode_eq_rsvd_iff w)⟩⟩

/-- Settles O35: both streams are run to their end; the words behind the illegal one meet the array that those before it
left, in both. -/
theorem illegalCommandsArePrecise : Obligations.IllegalCommandsArePrecise := by
  intro s before after w hrst hop
  have hrun := runSteps_of_words (before ++ w :: after) (s := { s with cmds := before ++ w :: after }) hrst rfl
  have hrun' := runSteps_of_words (before ++ after) (s := { s with cmds := before ++ after }) hrst rfl
  rw [List.length_append, List.length_cons, Nat.add_comm after.length, ← Nat.add_assoc] at hrun
  rw [List.length_append] at hrun'
  refine ⟨_, _, answersTo s.regs (before.map decode),
    answersTo ((before.map decode).foldl regsAfter s.regs) (after.map decode), hrun, hrun', ?_, ?_, ?_, ?_⟩
  · simp [decode_of_opField_rsvd hop, regsAfter]
  · simp
  · simp [decode_of_opField_rsvd hop, answersTo_append, answersTo, answerTo, regsAfter, Response.illegal,
      errIllegalCommand]
  · simp [answersTo_append]

/-- Settles O16: a step is a reset, the run of one command, or a wait, and each of them answers a state. -/
theorem everyStepGoesOn : Obligations.EveryStepGoesOn := step_eq_next

end Sys2Proof.Machine
end

