-- ==== Sys2Proof/Proofs/ResetInput.lean ====
section
/-! The reset input: an assertion of `rst` leaves the reset state at once (R200), the block is held there while it lasts
(R201), and a session that has one in it falls into the run before and a new run after (R212). -/

namespace Sys2Proof.Machine

/-! ### Asserting `rst` -/

/-- R200, R202: an assertion keeps the words the host offers, and nothing else of the state. -/
theorem State.setRst_true_eq (s : State) : s.setRst true = { State.reset with cmds := s.cmds, rst := true } := rfl

/-- R186, R201: a step with `rst` asserted is a reset, whatever is offered. -/
theorem step_of_rst_asserted {s : State} (hrst : s.rst = true) : step s = .next s.enterReset := by
  simp [step, hrst]

/-! ### Sessions in two parts -/

/-- A session of two parts is the second part from where the first one ends, and the responses of both in order. -/
theorem session_append (as bs : List HostAction) (s : State) :
    session (as ++ bs) s =
      ((session bs (session as s).1).1, (session as s).2 ++ (session bs (session as s).1).2) := by
  induction as generalizing s with
  | nil => rfl
  | cons a as ih => simp [session, ih]

/-- A session that asserts `rst` first is what follows, from the reset state with the words still offered. -/
theorem session_setRst_true_cons (as : List HostAction) (s : State) :
    session (.setRst true :: as) s = session as { State.reset with cmds := s.cmds, rst := true } := by
  simp [session, act, State.setRst_true_eq]

/-! ### Reset held -/

/-- R201: an asserted `rst` goes with the reset array and no waiting response. -/
def State.ResetWhileAsserted (s : State) : Prop := s.rst = true → s.regs = State.reset.regs ∧ s.rsps = []

/-- A step brings this about, whatever stood before it. -/
theorem resetWhileAsserted_of_step {s t : State} (h : step s = .next t) : t.ResetWhileAsserted := by
  intro htrst
  obtain ⟨hrst, -⟩ := step_rst_cmds h
  rw [step_of_rst_asserted (hrst.symm.trans htrst)] at h
  cases h
  exact ⟨s.enterReset_regs, s.enterReset_rsps⟩

/-- With no response waiting there is none to take, so what the host takes is from a block out of reset. -/
theorem act_keeps_resetWhileAsserted {s : State} (hs : s.ResetWhileAsserted) (a : HostAction) :
    (act s a).1.ResetWhileAsserted := by
  cases a with
  | setRst level =>
    cases level with
    | true => exact fun _ => ⟨s.setRst_true_regs, s.setRst_true_rsps⟩
    | false => exact fun hrst => absurd hrst Bool.false_ne_true
  | offer w => exact hs
  | take =>
    simp only [act]
    split
    · next htake =>
      intro hrst
      obtain ⟨hrsps, -, -, htrst⟩ := State.take_eq_some htake
      obtain ⟨-, hnone⟩ := hs (htrst.symm.trans hrst)
      exact absurd (hrsps.symm.trans hnone) (List.cons_ne_nil _ _)
    · exact hs
  | blockStep =>
    obtain ⟨t, hstep⟩ := step_eq_next s
    rw [act_blockStep hstep]
    exact resetWhileAsserted_of_step hstep

/-! ### The statements -/

/-- Settles O50: the session is cut at the assertion, which forgets all of the old run but the words offered. -/
theorem resetStartsANewRun : Obligations.ResetStartsANewRun := fun before after s => by
  rw [session_append, session_setRst_true_cons]

/-- Settles O51, by induction on the actions. -/
theorem heldResetKeepsTheResetState : Obligations.HeldResetKeepsTheResetState := fun actions _ =>
  session_keeps (P := State.ResetWhileAsserted) (fun _ a hs => act_keeps_resetWhileAsserted hs a) actions

/-- Settles O2: the step is a reset. -/
theorem assertedResetClearsTheBlock : Obligations.AssertedResetClearsTheBlock := fun s hrst =>
  ⟨s.enterReset, step_of_rst_asserted hrst, Regs.read_cleared, s.enterReset_rsps⟩

/-- Settles O15. -/
theorem stepWaitsForACommand : Obligations.StepWaitsForACommand := fun _ => step_of_cmds_eq_nil

/-- Settles O49: the assertion leaves the reset state with the words offered, and releasing `rst` changes nothing else. -/
theorem assertingResetActsAtOnce : Obligations.AssertingResetActsAtOnce := fun s =>
  ⟨Regs.read_cleared, s.setRst_true_rsps, rfl, s.setRst_rst true, session_setRst_true_cons [.setRst false] s⟩

end Sys2Proof.Machine
end

section
namespace Sys2Proof.Machine

/-- Settles O3: the step is a reset, which leaves both the words offered and `rst`. -/
theorem assertedResetAcceptsNoCommand : Obligations.AssertedResetAcceptsNoCommand := fun s hrst =>
  ⟨s.enterReset, step_of_rst_asserted hrst, s.enterReset_cmds, s.enterReset_rst.trans hrst⟩

end Sys2Proof.Machine
end
